-- ==== Sys2Proof/Word.lean ====
section
/-! DEFINITION. The word, the character and the names of the general registers. -/

namespace Sys2Proof

/-- A 16-bit word: every register, every memory word, every address (R4, R7). -/
abbrev Word := BitVec 16

/-- An 8-bit character of the console, or one byte of an image file (R9, R99). -/
abbrev Byte := BitVec 8

/-- The eight general registers R0 to R7 (R13). -/
inductive Reg where
  | r0 | r1 | r2 | r3 | r4 | r5 | r6 | r7
  deriving DecidableEq, Repr

end Sys2Proof
end

