-- ==== Sys2Proof/Syntax.lean ====
section
/-! DEFINITION. The instructions: one constructor per row of spec/opcode_table.json (R43, R45), holding
exactly the fields R44 names. Bits the decode ignores (R47) are no part of an instruction. -/

namespace Sys2Proof

/-- The 19 instruction forms of R45. -/
inductive Instr where
  /-- BR: the three condition bits and PCoffset9 (R60). -/
  | br (n z p : Bool) (offset : BitVec 9)
  /-- ADD, register form (R55). -/
  | addReg (dr sr1 sr2 : Reg)
  /-- ADD, immediate form (R56). -/
  | addImm (dr sr1 : Reg) (imm : BitVec 5)
  /-- LD (R66). -/
  | ld (dr : Reg) (offset : BitVec 9)
  /-- ST (R70). -/
  | st (sr : Reg) (offset : BitVec 9)
  /-- JSR: PCoffset11 (R62). -/
  | jsr (offset : BitVec 11)
  /-- JSRR (R63). -/
  | jsrr (base : Reg)
  /-- AND, register form (R57). -/
  | andReg (dr sr1 sr2 : Reg)
  /-- AND, immediate form (R58). -/
  | andImm (dr sr1 : Reg) (imm : BitVec 5)
  /-- LDR: offset6 (R68). -/
  | ldr (dr base : Reg) (offset : BitVec 6)
  /-- STR: offset6 (R72). -/
  | str (sr base : Reg) (offset : BitVec 6)
  /-- RTI (R83). -/
  | rti
  /-- NOT (R59). -/
  | not (dr sr : Reg)
  /-- LDI (R67). -/
  | ldi (dr : Reg) (offset : BitVec 9)
  /-- STI (R71). -/
  | sti (sr : Reg) (offset : BitVec 9)
  /-- JMP; RET is the case `base = r7` (R61). -/
  | jmp (base : Reg)
  /-- RES (R84). -/
  | res
  /-- LEA (R69). -/
  | lea (dr : Reg) (offset : BitVec 9)
  /-- TRAP: the 8-bit trap code (R73). -/
  | trap (vect : BitVec 8)
  deriving DecidableEq, Repr

end Sys2Proof
end

