-- ==== Sys2Proof/WellFormed.lean ====
section
/-! DEFINITION. The checks on raw data. Every term of `Instr` is well formed, because its fields have
the widths of R44 as their types and every word decodes (R48); so nothing about an instruction is left
to check. What can be ill formed is a WORD that is not the one the assembler writes for its form
(R45, R47), and an image FILE that holds no origin (R100). -/

namespace Sys2Proof

/-- The bits of the word that the decode ignores, as R47 lists them by opcode. -/
def ignoredBits (w : Word) : Word :=
  let op := w >>> 12
  if op = 0x1#16 ∨ op = 0x5#16 then (if w.getLsbD 5 then 0x0000#16 else 0x0018#16)
  else if op = 0x9#16 then 0x003F#16
  else if op = 0xC#16 then 0x0E3F#16
  else if op = 0x4#16 then (if w.getLsbD 11 then 0x0000#16 else 0x063F#16)
  else if op = 0xF#16 then 0x0F00#16
  else if op = 0x8#16 ∨ op = 0xD#16 then 0x0FFF#16
  else 0x0000#16

/-- What the standard assembler writes in the ignored bits: ones for NOT, zeros elsewhere (R45, GK3).
DESIGN CHOICE for RES, for which R45 shows no value: zeros (log entry 5). -/
def assemblerBits (w : Word) : Word := if w >>> 12 = 0x9#16 then 0x003F#16 else 0x0000#16

/-- The word is the one an assembler writes for its form: its ignored bits hold the values R45 shows. -/
def canonicalWord (w : Word) : Bool := w &&& ignoredBits w == assemblerBits w

/-- An image file has an origin: it holds at least one whole word (R100). -/
def imageWellFormed (file : List Byte) : Bool := decide (2 ≤ file.length)

end Sys2Proof
end

