-- ==== Sys2Proof/Decode.lean ====
section
/-! DEFINITION. The decoder, total on 16-bit words (R48), and after it the encoder, both written from the
formats of R43 to R47. The machine reads whole words (R37), so an instruction is laid out with no byte
order. The opcode numbers and bit positions are the spec's decision D2 (log entry 3). -/

namespace Sys2Proof

/-- Bits `lo + n - 1` down to `lo` of a word, as an `n`-bit field (R6). -/
def field (w : Word) (lo n : Nat) : BitVec n := w.extractLsb' lo n

/-- A 3-bit register field read as an unsigned number selects R0 to R7 (R13, R46). -/
def Reg.ofBits (b : BitVec 3) : Reg :=
  match b.toNat with
  | 0 => .r0
  | 1 => .r1
  | 2 => .r2
  | 3 => .r3
  | 4 => .r4
  | 5 => .r5
  | 6 => .r6
  | _ => .r7

/-- The register field that selects a register (R13). -/
def Reg.toBits : Reg → BitVec 3
  | .r0 => 0
  | .r1 => 1
  | .r2 => 2
  | .r3 => 3
  | .r4 => 4
  | .r5 => 5
  | .r6 => 6
  | .r7 => 7

/-- The register named by the three bits from `lo` up (R44). -/
def regField (w : Word) (lo : Nat) : Reg := Reg.ofBits (field w lo 3)

/-- The instruction form a word is, with its fields: the dispatch of R53 over the fields of R44. The
ignored bits of R47 are not read. Opcode 1111 (TRAP) is the last of the sixteen. -/
def decode (w : Word) : Instr :=
  match field w 12 4 with
  | 0b0000#4 => .br (w.getLsbD 11) (w.getLsbD 10) (w.getLsbD 9) (field w 0 9)
  | 0b0001#4 =>
    if w.getLsbD 5 then .addImm (regField w 9) (regField w 6) (field w 0 5)
    else .addReg (regField w 9) (regField w 6) (regField w 0)
  | 0b0010#4 => .ld (regField w 9) (field w 0 9)
  | 0b0011#4 => .st (regField w 9) (field w 0 9)
  | 0b0100#4 => if w.getLsbD 11 then .jsr (field w 0 11) else .jsrr (regField w 6)
  | 0b0101#4 =>
    if w.getLsbD 5 then .andImm (regField w 9) (regField w 6) (field w 0 5)
    else .andReg (regField w 9) (regField w 6) (regField w 0)
  | 0b0110#4 => .ldr (regField w 9) (regField w 6) (field w 0 6)
  | 0b0111#4 => .str (regField w 9) (regField w 6) (field w 0 6)
  | 0b1000#4 => .rti
  | 0b1001#4 => .not (regField w 9) (regField w 6)
  | 0b1010#4 => .ldi (regField w 9) (field w 0 9)
  | 0b1011#4 => .sti (regField w 9) (field w 0 9)
  | 0b1100#4 => .jmp (regField w 6)
  | 0b1101#4 => .res
  | 0b1110#4 => .lea (regField w 9) (field w 0 9)
  | _ => .trap (field w 0 8)

/-- The opcode number of R43. -/
def Instr.opcode : Instr → BitVec 4
  | .br .. => 0b0000
  | .addReg .. => 0b0001
  | .addImm .. => 0b0001
  | .ld .. => 0b0010
  | .st .. => 0b0011
  | .jsr .. => 0b0100
  | .jsrr .. => 0b0100
  | .andReg .. => 0b0101
  | .andImm .. => 0b0101
  | .ldr .. => 0b0110
  | .str .. => 0b0111
  | .rti => 0b1000
  | .not .. => 0b1001
  | .ldi .. => 0b1010
  | .sti .. => 0b1011
  | .jmp .. => 0b1100
  | .res => 0b1101
  | .lea .. => 0b1110
  | .trap .. => 0b1111

/-- The twelve bits below the opcode, as R45 lays the form out. The ignored bits get the values R45 shows
under `x` (RES: zeros, log entry 5). -/
def Instr.operandBits : Instr → BitVec 12
  | .br n z p offset => BitVec.ofBool n ++ BitVec.ofBool z ++ BitVec.ofBool p ++ offset
  | .addReg dr sr1 sr2 => dr.toBits ++ sr1.toBits ++ 0b0#1 ++ 0b00#2 ++ sr2.toBits
  | .addImm dr sr1 imm => dr.toBits ++ sr1.toBits ++ 0b1#1 ++ imm
  | .ld dr offset => dr.toBits ++ offset
  | .st sr offset => sr.toBits ++ offset
  | .jsr offset => 0b1#1 ++ offset
  | .jsrr base => 0b0#1 ++ 0b00#2 ++ base.toBits ++ 0b000000#6
  | .andReg dr sr1 sr2 => dr.toBits ++ sr1.toBits ++ 0b0#1 ++ 0b00#2 ++ sr2.toBits
  | .andImm dr sr1 imm => dr.toBits ++ sr1.toBits ++ 0b1#1 ++ imm
  | .ldr dr base offset => dr.toBits ++ base.toBits ++ offset
  | .str sr base offset => sr.toBits ++ base.toBits ++ offset
  | .rti => 0b000000000000#12
  | .not dr sr => dr.toBits ++ sr.toBits ++ 0b111111#6
  | .ldi dr offset => dr.toBits ++ offset
  | .sti sr offset => sr.toBits ++ offset
  | .jmp base => 0b000#3 ++ base.toBits ++ 0b000000#6
  | .res => 0b000000000000#12
  | .lea dr offset => dr.toBits ++ offset
  | .trap vect => 0b0000#4 ++ vect

/-- The word the assembler writes for an instruction (R45, R52). -/
def encode (i : Instr) : Word := i.opcode ++ i.operandBits

/-- The instruction read from `nbits` bits numbered as spec/opcode_table.json numbers them, bit 0 the least
significant bit of the one instruction word (R42). Bits above `nbits` are 0; no instruction is longer than a
word, and none is empty. -/
def decodeTableWord (nbits w : Nat) : Option Instr :=
  if 0 < nbits ∧ nbits ≤ 16 then some (decode (BitVec.ofNat 16 (w % 2 ^ nbits))) else none

end Sys2Proof
end

