-- ==== Sys2Proof/Config.lean ====
section
/-! DEFINITION. What one build of the machine fixes and the spec leaves open: the four named parameters
of R5, and the two nonzero exit codes of R101. Each is opaque: no proof can see its value. -/

namespace Sys2Proof.Config

/-- What GETC and IN do once the input is closed and empty (R5, D8). -/
inductive EofPolicy where
  /-- The step holds for ever. -/
  | hold
  /-- The read answers the word `v` in place of a character. -/
  | value (v : Word)
  deriving DecidableEq, Repr, Inhabited

/-- The four open parameters, which "the model takes as arguments" (R5). -/
structure Params where
  /-- The characters HALT writes before it stops (D12). -/
  haltNotice : List Byte
  /-- The characters IN writes before the echo (D13). -/
  inPrompt : List Byte
  /-- Whether the string reads of PUTS and PUTSP go through the polling read (D9). -/
  trapReadsPoll : Bool
  /-- End of input (D8). -/
  eofPolicy : EofPolicy
  deriving DecidableEq, Repr, Inhabited

/-- The parameters of this machine. UNVERIFIED: the spec gives none of the four (log entry 6). -/
opaque params : Params

/-- The free choice behind the two nonzero exit codes (U9, N9; log entry 18). -/
opaque exitChoice : Nat × Nat

/-- The exit code when the host is given no image path: nonzero, otherwise free (R101). -/
def noPathsCode : Nat := exitChoice.1 + 1

/-- The exit code after a load failure: nonzero, different from `noPathsCode`, otherwise free
(R101; DEDUCED from its words "a distinct nonzero code", log entry 18). -/
def loadFailureCode : Nat :=
  if exitChoice.2 < exitChoice.1 then exitChoice.2 + 1 else exitChoice.2 + 2

end Sys2Proof.Config
end

