-- ==== Sys2Proof/Machine/State.lean ====
section
/-! DEFINITION. The state of the machine (10_state.md), the reasons a step can stop, and the state after
reset (R26, R29). -/

namespace Sys2Proof.Machine

/-- The condition-flag register holds exactly one of NEGATIVE, ZERO, POSITIVE (R18). -/
inductive Cond where
  | n | z | p
  deriving DecidableEq, Repr

/-- The register file: eight general registers of 16 bits, none hardwired, no banks (R13, R25). -/
structure RegFile where
  r0 : Word
  r1 : Word
  r2 : Word
  r3 : Word
  r4 : Word
  r5 : Word
  r6 : Word
  r7 : Word
  deriving DecidableEq, Repr

/-- The storage of 65536 words (R28) as its nonzero words: pairs of an address and the word there, addresses
strictly rising. An address not listed holds 0x0000 (R29; log entries 1 and 2). -/
abbrev Memory := List (Nat × Word)

/-- The console collaborator (R23): characters typed and not yet consumed, oldest first; whether the input
has ended; characters written, oldest first. -/
structure Console where
  input : List Byte
  closed : Bool
  output : List Byte
  deriving DecidableEq, Repr

/-- Everything 10_state.md gives the machine. KBSR and KBDR are the storage words 0xFE00 and 0xFE02. -/
structure State where
  /-- R0 to R7 (R13). -/
  x : RegFile
  /-- The program counter, a word address (R16). -/
  pc : Word
  /-- The condition-flag register (R18). -/
  cond : Cond
  /-- The running flag (R22). -/
  running : Bool
  /-- `Store` (R28). -/
  store : Memory
  /-- The console collaborator (R23). -/
  console : Console
  deriving DecidableEq, Repr

/-- Why a step does not answer a next state. No instruction raises an error (R85); both reasons are stuck
states given a name. -/
inductive Fault where
  /-- Raised by `step` when `running` is false: "the core has no step" from there and "that state is final"
  (R12, R108). Safe: nothing is claimed of a state after it (log entry 8). -/
  | halted
  /-- Raised by TRAP PUTS and TRAP PUTSP when the string has no zero word: "the step never completes" (R77,
  R79, R110). Safe: the run has no next state, as in the hardware (log entry 9). -/
  | endlessString
  deriving DecidableEq, Repr

/-- Why the model gives an instruction no meaning. -/
inductive Refusal where
  /-- Raised by an arm of `exec` whose instruction has no meaning yet. Safe. No arm raises it now. -/
  | notModelled (mnemonic : String)
  deriving DecidableEq, Repr

/-- The machine right after reset, no image loaded: R0 to R7 zero, `pc` = 0x3000, `cond` = Z, running, every
memory word 0x0000 (R26, R29, R98). DESIGN CHOICE: no character typed yet and the input not closed, which
R26 leaves to the keyboard agent (log entry 10). -/
def State.reset : State where
  x := { r0 := 0, r1 := 0, r2 := 0, r3 := 0, r4 := 0, r5 := 0, r6 := 0, r7 := 0 }
  pc := 0x3000#16
  cond := .z
  running := true
  store := []
  console := { input := [], closed := false, output := [] }

end Sys2Proof.Machine
end

