-- ==== Sys2Proof/Machine/Ops.lean ====
section
/-! DEFINITION. The named operations on the state: registers and control state (R10), storage and the memory
unit (R11, R28 to R33), the console (R23), the fetch (R16, R53), and trap entry (R88). -/

namespace Sys2Proof.Machine

/-! ### Registers and control state -/

/-- `x[i]` (R10). -/
def RegFile.read (x : RegFile) : Reg → Word
  | .r0 => x.r0
  | .r1 => x.r1
  | .r2 => x.r2
  | .r3 => x.r3
  | .r4 => x.r4
  | .r5 => x.r5
  | .r6 => x.r6
  | .r7 => x.r7

/-- `x[i] <- v` (R10). Every register is writable (R14). -/
def RegFile.write (x : RegFile) (r : Reg) (v : Word) : RegFile :=
  match r with
  | .r0 => { x with r0 := v }
  | .r1 => { x with r1 := v }
  | .r2 => { x with r2 := v }
  | .r3 => { x with r3 := v }
  | .r4 => { x with r4 := v }
  | .r5 => { x with r5 := v }
  | .r6 => { x with r6 := v }
  | .r7 => { x with r7 := v }

/-- The value of a general register. -/
def readReg (r : Reg) (s : State) : Word := s.x.read r

/-- Write a general register. -/
def writeReg (r : Reg) (v : Word) (s : State) : State := { s with x := s.x.write r v }

/-- `pc <- target` (R10). -/
def setPc (target : Word) (s : State) : State := { s with pc := target }

/-- `cond <- c` (R10). -/
def setCond (c : Cond) (s : State) : State := { s with cond := c }

/-- `running <- false`: the core stops (R22). -/
def stopRunning (s : State) : State := { s with running := false }

/-! ### Storage -/

/-- The word a storage holds at an address; an address not listed holds 0x0000 (R29). -/
def Memory.read : Memory → Nat → Word
  | [], _ => 0x0000#16
  | (b, w) :: rest, a => if a = b then w else Memory.read rest a

/-- The storage without an address's entry. -/
def Memory.erase (m : Memory) (a : Nat) : Memory := m.filter fun e => e.1 != a

/-- The storage with an entry put in before the first greater address. -/
def Memory.insert : Memory → Nat → Word → Memory
  | [], a, v => [(a, v)]
  | (b, w) :: rest, a, v =>
    if a < b then (a, v) :: (b, w) :: rest else (b, w) :: Memory.insert rest a v

/-- The storage with the word at one address replaced, in canonical form: writing 0x0000 unlists the
address. -/
def Memory.write (m : Memory) (a : Nat) (v : Word) : Memory :=
  if v = 0x0000#16 then m.erase a else (m.erase a).insert a v

/-- Canonical form from an address up: addresses strictly rising, from `lo` and below 65536 (R28), no listed
word 0x0000. -/
def Memory.wfFrom (lo : Nat) : Memory → Bool
  | [] => true
  | (a, v) :: rest =>
    decide (lo ≤ a) && decide (a < 65536) && decide (v ≠ 0x0000#16) && Memory.wfFrom (a + 1) rest

/-- The storage is in canonical form, so that equal storages are equal lists. -/
def Memory.wf (m : Memory) : Bool := Memory.wfFrom 0 m

/-- `Store[a]`, with no side effect (R11). -/
def storeAt (a : Word) (s : State) : Word := s.store.read a.toNat

/-- `Store[a] <- v`, with no side effect (R11). -/
def setStore (a v : Word) (s : State) : State := { s with store := s.store.write a.toNat v }

/-! ### The console collaborator -/

/-- `ConsoleAvail()`: whether a character is pending. It changes nothing (R23). -/
def consoleAvail (s : State) : Bool := !s.console.input.isEmpty

/-- The oldest pending character, and the state with it consumed; nothing when none is pending (R23). -/
def takeChar (s : State) : Option (Byte × State) :=
  match s.console.input with
  | [] => none
  | c :: rest => some (c, { s with console := { s.console with input := rest } })

/-- A character as a word: zero extension (R9, D6; log entry 12). -/
def zextChar (c : Byte) : Word := c.setWidth 16

/-- `ConsoleRead()` under an end-of-input policy: the word read and the state after, or nothing when the step
that calls it holds (R23, D8). -/
def consoleRead (policy : Config.EofPolicy) (s : State) : Option (Word × State) :=
  match takeChar s with
  | some (c, t) => some (zextChar c, t)
  | none =>
    if s.console.closed then
      match policy with
      | .hold => none
      | .value v => some (v, s)
    else none

/-- `ConsoleWrite(c)`: append a character to the output. It never blocks and never fails (R23, D20). -/
def consoleWrite (c : Byte) (s : State) : State :=
  { s with console := { s.console with output := s.console.output ++ [c] } }

/-- `ConsoleWrite` of each character in turn, the first one first. -/
def consoleWriteAll (cs : List Byte) (s : State) : State :=
  { s with console := { s.console with output := s.console.output ++ cs } }

/-! ### The memory unit -/

/-- KBSR, the keyboard status register (R4, R93). -/
def kbsr : Word := 0xFE00#16

/-- KBDR, the keyboard data register (R4, R93). -/
def kbdr : Word := 0xFE02#16

/-- The keyboard-status poll (R32): with a character pending, take it, set KBSR to 0x8000 and put its code in
KBDR; with none, clear KBSR (D5, C5; log entry 13). -/
def pollKeyboard (s : State) : State :=
  match takeChar s with
  | some (c, t) => setStore kbdr (zextChar c) (setStore kbsr 0x8000#16 t)
  | none => setStore kbsr 0x0000#16 s

/-- `MemRead(a, 1)`: the word read and the state after. A read of KBSR polls first (R31, R32). -/
def memRead (a : Word) (s : State) : Word × State :=
  if a = kbsr then (storeAt kbsr (pollKeyboard s), pollKeyboard s) else (storeAt a s, s)

/-- `MemWrite(a, 1, v)` "stores unconditionally", at every address, with no side effect (R30). -/
def memWrite (a v : Word) (s : State) : State := setStore a v s

/-! ### The instruction cycle -/

/-- The fetch: `ir <- MemRead(pc, 1)`, then `pc <- pc + 1` (R16, R53). -/
def fetch (s : State) : Word × State :=
  ((memRead s.pc s).1, setPc ((memRead s.pc s).2.pc + 1#16) (memRead s.pc s).2)

/-- The whole step is not enabled: "the state is left unchanged, including pc" (R53). The instruction puts
the fetch's increment back; the fetch of a GETC or IN word has no other effect (R53; log entry 7). -/
def holdStep (s : State) : State := setPc (s.pc - 1#16) s

/-! ### Trap entry -/

/-- Trap entry "saves exactly one value: the incremented PC, into R7" (R88). There is no other exception in
this hardware (R85, R86), and the return is the completion of the step (R89). -/
def enterTrap (s : State) : State := writeReg .r7 s.pc s

end Sys2Proof.Machine
end

