-- ==== Sys2Proof/Machine/Flags.lean ====
section
/-! DEFINITION. The condition-flag updater (R19), the write of a destination register that ends with it
(R20), and BR's test (R18, R60). -/

namespace Sys2Proof.Machine

/-- The flag of a word: Z for 0, N when bit 15 is set, else P (R19). -/
def flagOf (v : Word) : Cond := if v = 0x0000#16 then .z else if v.getLsbD 15 then .n else .p

/-- `SetCC(v)` (R19). -/
def setCC (v : Word) (s : State) : State := setCond (flagOf v) s

/-- `x[DR] <- v` and then `SetCC(x[DR])`: how every flag-defining instruction ends (R20). -/
def defineReg (dr : Reg) (v : Word) (s : State) : State :=
  setCC (readReg dr (writeReg dr v s)) (writeReg dr v s)

/-- The one-hot bits of `cond`: bit 2 is N, bit 1 is Z, bit 0 is P (R18, D3; log entry 4). -/
def Cond.bits : Cond → BitVec 3
  | .n => 0b100
  | .z => 0b010
  | .p => 0b001

/-- BR's test: (branch-condition-bits & current flag) is not 0 (R60). -/
def branchTaken (n z p : Bool) (c : Cond) : Bool :=
  decide ((BitVec.ofBool n ++ BitVec.ofBool z ++ BitVec.ofBool p) &&& c.bits ≠ 0b000#3)

end Sys2Proof.Machine
end

