-- ==== Sys2Proof/Machine/Operands.lean ====
section
/-! DEFINITION. Operand forms: the sign extension of immediate fields (R8, R46) and the addressing modes
(R65). In a meaning `s.pc` is the incremented PC (R16). -/

namespace Sys2Proof.Machine

/-- `sext_n`: an n-bit two's-complement field as a word (R8); the core uses n = 5, 6, 9 and 11. -/
def sext {n : Nat} (f : BitVec n) : Word := f.signExtend 16

/-- PC-relative address: the incremented PC plus the extended offset, modulo 2^16 (R46, R65). -/
def pcRelative {n : Nat} (offset : BitVec n) (s : State) : Word := s.pc + sext offset

/-- Base plus offset (R65). No mode modifies the base register. -/
def baseOffset (base : Reg) (offset : BitVec 6) (s : State) : Word := readReg base s + sext offset

/-- PC-relative indirect: the pointer word, read through the memory unit, and the state after that read
(R65, R67, R71). -/
def pcIndirect (offset : BitVec 9) (s : State) : Word × State := memRead (pcRelative offset s) s

end Sys2Proof.Machine
end

