-- ==== Sys2Proof/Machine/Control.lean ====
section
/-! DEFINITION. Control transfer: BR, JMP (RET), JSR, JSRR (41_control.md). None changes `cond`; there is no
delay slot, and every target is valid (R64). -/

namespace Sys2Proof.Machine

/-- BR (R60). -/
def execBr (n z p : Bool) (offset : BitVec 9) (s : State) : Host.Outcome State Fault Refusal :=
  .next (if branchTaken n z p s.cond then setPc (pcRelative offset s) s else s)

/-- JMP; RET when the base is R7 (R61). -/
def execJmp (base : Reg) (s : State) : Host.Outcome State Fault Refusal :=
  .next (setPc (readReg base s) s)

/-- JSR: R7 gets the return address; the target is relative to the incremented PC (R62). -/
def execJsr (offset : BitVec 11) (s : State) : Host.Outcome State Fault Refusal :=
  .next (setPc (pcRelative offset s) (writeReg .r7 s.pc s))

/-- JSRR: R7 is written first, and the base is read after that write (R63, C6). -/
def execJsrr (base : Reg) (s : State) : Host.Outcome State Fault Refusal :=
  .next (setPc (readReg base (writeReg .r7 s.pc s)) (writeReg .r7 s.pc s))

end Sys2Proof.Machine
end

