-- ==== Sys2Proof/Machine/LoadStore.lean ====
section
/-! DEFINITION. Loads, stores and LEA (42_load_store.md). A load through the memory unit from 0xFE00 polls the
keyboard (R32); a store never does (R30). -/

namespace Sys2Proof.Machine

/-- LD (R66). -/
def execLd (dr : Reg) (offset : BitVec 9) (s : State) : Host.Outcome State Fault Refusal :=
  let r := memRead (pcRelative offset s) s
  .next (defineReg dr r.1 r.2)

/-- LDI: the pointer read, then the data read (R67). -/
def execLdi (dr : Reg) (offset : BitVec 9) (s : State) : Host.Outcome State Fault Refusal :=
  let ptr := pcIndirect offset s
  let r := memRead ptr.1 ptr.2
  .next (defineReg dr r.1 r.2)

/-- LDR (R68). -/
def execLdr (dr base : Reg) (offset : BitVec 6) (s : State) : Host.Outcome State Fault Refusal :=
  let r := memRead (baseOffset base offset s) s
  .next (defineReg dr r.1 r.2)

/-- LEA: the address itself, with no memory access; it sets the flags (R69, C9). -/
def execLea (dr : Reg) (offset : BitVec 9) (s : State) : Host.Outcome State Fault Refusal :=
  .next (defineReg dr (pcRelative offset s) s)

/-- ST (R70). -/
def execSt (sr : Reg) (offset : BitVec 9) (s : State) : Host.Outcome State Fault Refusal :=
  .next (memWrite (pcRelative offset s) (readReg sr s) s)

/-- STI: the pointer read, then the store (R71). -/
def execSti (sr : Reg) (offset : BitVec 9) (s : State) : Host.Outcome State Fault Refusal :=
  let ptr := pcIndirect offset s
  .next (memWrite ptr.1 (readReg sr ptr.2) ptr.2)

/-- STR (R72). -/
def execStr (sr base : Reg) (offset : BitVec 6) (s : State) : Host.Outcome State Fault Refusal :=
  .next (memWrite (baseOffset base offset s) (readReg sr s) s)

end Sys2Proof.Machine
end

