-- ==== Sys2Proof/Machine/Operate.lean ====
section
/-! DEFINITION. The operate instructions ADD, AND and NOT (40_operate.md). Both sources are read before the
destination is written; no operation signals overflow (R54). -/

namespace Sys2Proof.Machine

/-- ADD, register form (R55). -/
def execAddReg (dr sr1 sr2 : Reg) (s : State) : Host.Outcome State Fault Refusal :=
  .next (defineReg dr (readReg sr1 s + readReg sr2 s) s)

/-- ADD, immediate form (R56). -/
def execAddImm (dr sr1 : Reg) (imm : BitVec 5) (s : State) : Host.Outcome State Fault Refusal :=
  .next (defineReg dr (readReg sr1 s + sext imm) s)

/-- AND, register form (R57). -/
def execAndReg (dr sr1 sr2 : Reg) (s : State) : Host.Outcome State Fault Refusal :=
  .next (defineReg dr (readReg sr1 s &&& readReg sr2 s) s)

/-- AND, immediate form (R58). -/
def execAndImm (dr sr1 : Reg) (imm : BitVec 5) (s : State) : Host.Outcome State Fault Refusal :=
  .next (defineReg dr (readReg sr1 s &&& sext imm) s)

/-- NOT (R59). -/
def execNot (dr sr : Reg) (s : State) : Host.Outcome State Fault Refusal :=
  .next (defineReg dr (~~~ readReg sr s) s)

end Sys2Proof.Machine
end

