-- ==== Sys2Proof/Machine/Reserved.lean ====
section
/-! DEFINITION. The two opcodes this hardware executes as no-ops, RTI and RES (44_reserved.md, R49): "the only
effect of the step is the fetch's pc <- pc + 1". -/

namespace Sys2Proof.Machine

/-- RTI restores nothing, checks nothing and traps nowhere (R83, C8). -/
def execRti (s : State) : Host.Outcome State Fault Refusal := .next s

/-- RES raises no illegal-opcode exception (R84, C8). -/
def execRes (s : State) : Host.Outcome State Fault Refusal := .next s

end Sys2Proof.Machine
end

