-- ==== Sys2Proof/Machine/Trap.lean ====
section
/-! DEFINITION. TRAP and the trap dispatcher (43_trap.md). The service runs inside the step (R73, D14). Every
definition takes the open parameters of R5 as an argument; `execTrap` gives it the machine's own. -/

namespace Sys2Proof.Machine

/-- The six services of R74. -/
inductive Service where
  | getc | out | puts | in | putsp | halt
  deriving DecidableEq, Repr

/-- Service dispatch on the trap code; any other code has no service (R74, R81). -/
def serviceOf (vect : BitVec 8) : Option Service :=
  if vect = 0x20#8 then some .getc
  else if vect = 0x21#8 then some .out
  else if vect = 0x22#8 then some .puts
  else if vect = 0x23#8 then some .in
  else if vect = 0x24#8 then some .putsp
  else if vect = 0x25#8 then some .halt
  else none

/-- How a service ends: it completes, it holds for want of a character (R106), or it never ends (R110). -/
inductive ServiceEnd where
  | done (s : State)
  | holds
  | endless
  deriving DecidableEq, Repr

/-- Bits [7:0] of a word. -/
def lowByte (w : Word) : Byte := w.extractLsb' 0 8

/-- Bits [15:8] of a word. -/
def highByte (w : Word) : Byte := w.extractLsb' 8 8

/-! ### GETC, OUT, IN, HALT -/

/-- GETC (R75): a blocking read into R0, no echo. -/
def serviceGetc (p : Config.Params) (s : State) : ServiceEnd :=
  match consoleRead p.eofPolicy s with
  | none => .holds
  | some (w, t) => .done (defineReg .r0 w t)

/-- OUT (R76): the low byte of R0. -/
def serviceOut (s : State) : ServiceEnd := .done (consoleWrite (lowByte (readReg .r0 s)) s)

/-- IN (R78): the prompt, then the echo, then R0. Enabled only when the read can complete (D14; log entry
15). -/
def serviceIn (p : Config.Params) (s : State) : ServiceEnd :=
  match consoleRead p.eofPolicy s with
  | none => .holds
  | some (w, t) => .done (defineReg .r0 w (consoleWrite (lowByte w) (consoleWriteAll p.inPrompt t)))

/-- HALT (R80): the notice, then `running <- false`. -/
def serviceHalt (p : Config.Params) (s : State) : ServiceEnd :=
  .done (stopRunning (consoleWriteAll p.haltNotice s))

/-! ### PUTS and PUTSP -/

/-- `Read(a)` of R77: `MemRead(a, 1)` if `poll`, else `Store[a]`. The two differ only at 0xFE00 (R31), so
the address is looked at first. -/
def readString (poll : Bool) (a : Word) (s : State) : Word × State :=
  if a = kbsr then (if poll then memRead a s else (storeAt a s, s)) else (storeAt a s, s)

/-- The characters PUTS writes for a word: its low byte (R77, D10; log entry 14). -/
def putsChars (w : Word) : List Byte := [lowByte w]

/-- The characters PUTSP writes for a word: the low byte always, then the high byte if nonzero (R79). -/
def putspChars (w : Word) : List Byte :=
  if highByte w ≠ 0x00#8 then [lowByte w, highByte w] else [lowByte w]

/-- The loop of R77 and R79, at most `fuel` reads long: nothing when `fuel` reads meet no word 0x0000. The
pointer wraps from 0xFFFF to 0x0000. -/
def emitString (chars : Word → List Byte) (poll : Bool) : Nat → Word → State → Option State
  | 0, _, _ => none
  | fuel + 1, a, s =>
    let r := readString poll a s
    if r.1 = 0x0000#16 then some r.2
    else emitString chars poll fuel (a + 1#16) (consoleWriteAll (chars r.1) r.2)

/-- As many reads as an ending string can take. Each round of 65536 reads visits 0xFE00 once. Read directly,
the words repeat after one round; read with the poll, each later visit to 0xFE00 consumes a pending
character, and the visit that finds none reads 0x0000 (R32, R77; log entry 9). -/
def stringFuel (s : State) : Nat := (s.console.input.length + 1) * 65536

/-- The string at the address in R0 (R77, R79). R0 is not changed. -/
def serviceString (chars : Word → List Byte) (p : Config.Params) (s : State) : ServiceEnd :=
  match emitString chars p.trapReadsPoll (stringFuel s) (readReg .r0 s) s with
  | some t => .done t
  | none => .endless

/-- PUTS (R77). -/
def servicePuts (p : Config.Params) (s : State) : ServiceEnd := serviceString putsChars p s

/-- PUTSP (R79). -/
def servicePutsp (p : Config.Params) (s : State) : ServiceEnd := serviceString putspChars p s

/-! ### TRAP -/

/-- `Service(ir[7:0])`, on the state trap entry leaves (R73, R74). A code with no service does nothing
(R81). -/
def runService (p : Config.Params) (service : Option Service) (s : State) : ServiceEnd :=
  match service with
  | some .getc => serviceGetc p s
  | some .out => serviceOut s
  | some .puts => servicePuts p s
  | some .in => serviceIn p s
  | some .putsp => servicePutsp p s
  | some .halt => serviceHalt p s
  | none => .done s

/-- TRAP under given parameters (R73): R7 gets the incremented PC before the service runs. When the service
holds, the whole step does (R53). -/
def execTrapWith (p : Config.Params) (vect : BitVec 8) (s : State) :
    Host.Outcome State Fault Refusal :=
  match runService p (serviceOf vect) (enterTrap s) with
  | .done t => .next t
  | .holds => .next (holdStep s)
  | .endless => .fault .endlessString

/-- TRAP (R73) of this machine. -/
def execTrap (vect : BitVec 8) (s : State) : Host.Outcome State Fault Refusal :=
  execTrapWith Config.params vect s

end Sys2Proof.Machine
end

