-- ==== Sys2Proof/Machine/Dispatch.lean ====
section
/-! DEFINITION. Dispatch (R53): one arm per instruction form, in the order of spec/opcode_table.json. The state
is the one after the fetch, so `s.pc` is the incremented PC (R16; log entry 20). -/

namespace Sys2Proof.Machine

def exec (i : Instr) (s : State) : Host.Outcome State Fault Refusal :=
  match i with
  | .br n z p offset => Sys2Proof.Machine.execBr n z p offset s
  | .addReg dr sr1 sr2 => Sys2Proof.Machine.execAddReg dr sr1 sr2 s
  | .addImm dr sr1 imm => Sys2Proof.Machine.execAddImm dr sr1 imm s
  | .ld dr offset => Sys2Proof.Machine.execLd dr offset s
  | .st sr offset => Sys2Proof.Machine.execSt sr offset s
  | .jsr offset => Sys2Proof.Machine.execJsr offset s
  | .jsrr base => Sys2Proof.Machine.execJsrr base s
  | .andReg dr sr1 sr2 => Sys2Proof.Machine.execAndReg dr sr1 sr2 s
  | .andImm dr sr1 imm => Sys2Proof.Machine.execAndImm dr sr1 imm s
  | .ldr dr base offset => Sys2Proof.Machine.execLdr dr base offset s
  | .str sr base offset => Sys2Proof.Machine.execStr sr base offset s
  | .rti => Sys2Proof.Machine.execRti s
  | .not dr sr => Sys2Proof.Machine.execNot dr sr s
  | .ldi dr offset => Sys2Proof.Machine.execLdi dr offset s
  | .sti sr offset => Sys2Proof.Machine.execSti sr offset s
  | .jmp base => Sys2Proof.Machine.execJmp base s
  | .res => Sys2Proof.Machine.execRes s
  | .lea dr offset => Sys2Proof.Machine.execLea dr offset s
  | .trap vect => Sys2Proof.Machine.execTrap vect s

end Sys2Proof.Machine
end

