-- ==== Sys2Proof/Machine/Step.lean ====
section
/-! DEFINITION. One step of the core: fetch, decode, dispatch (R53), and the host's way to place one
instruction. -/

namespace Sys2Proof.Machine

/-- One step (R53). From `running = false` the core has no step (R12, R108). -/
def step (s : State) : Host.Outcome State Fault Refusal :=
  if s.running then exec (decode (fetch s).1) (fetch s).2 else .fault .halted

/-- The state with an instruction's one word stored where `step` fetches next, as the image loader stores it
(R100). Log entries 17 and 19: a fetch from 0xFE00 reads what the poll leaves there instead (R32). -/
def State.withFetchWord (s : State) (nbits w : Nat) : State :=
  setStore s.pc (BitVec.ofNat 16 (w % 2 ^ nbits)) s

end Sys2Proof.Machine
end

