-- ==== Sys2Proof/Machine/Boot.lean ====
section
/-! DEFINITION. The host's side of a run: image files, loading, boot and the exit code (R97 to R103). -/

namespace Sys2Proof.Machine

/-- The big-endian words of a file of bytes; a trailing odd byte completes no word (R99, R100). -/
def wordsOfBytes : List Byte → List Word
  | hi :: lo :: rest => (hi ++ lo) :: wordsOfBytes rest
  | _ => []

/-- Store words one after another from an address on, directly. A word that would fall at 0x10000 or above is
not loaded, and nothing wraps (R100, D16; log entry 17). -/
def loadWords : Nat → List Word → Memory → Memory
  | _, [], m => m
  | a, w :: rest, m => if a < 65536 then loadWords (a + 1) rest (m.write a w) else m

/-- Load one image file: its first word is the origin, the others are the payload; a file with no whole word
is a load failure (R99, R100). -/
def loadImage (file : List Byte) (m : Memory) : Option Memory :=
  if imageWellFormed file then
    match wordsOfBytes file with
    | origin :: payload => some (loadWords origin.toNat payload m)
    | [] => none
  else none

/-- Load the images in the order the host names them; `none` for a path that cannot be opened or read. One
failure is fatal for all (R100, R101). -/
def loadImages : List (Option (List Byte)) → Memory → Option Memory
  | [], m => some m
  | none :: _, _ => none
  | some file :: rest, m =>
    match loadImage file m with
    | some m' => loadImages rest m'
    | none => none

/-- What the host's start-up comes to (R98, R101). -/
inductive Boot where
  /-- The core runs from this state. -/
  | started (s : State)
  /-- No image path was given: the core executes nothing. -/
  | noPaths
  /-- An image failed to load: the core executes nothing. -/
  | loadFailure
  deriving DecidableEq, Repr

/-- Reset, then load every image, then run from 0x3000 whatever the origins (R98, C1). -/
def boot (images : List (Option (List Byte))) : Boot :=
  match images with
  | [] => .noPaths
  | first :: rest =>
    match loadImages (first :: rest) State.reset.store with
    | some m => .started { State.reset with store := m }
    | none => .loadFailure

/-- The exit code of a start-up that fails: nonzero, its value free (R101, U9). -/
def Boot.exitCode : Boot → Option Nat
  | .started _ => none
  | .noPaths => some Config.noPathsCode
  | .loadFailure => some Config.loadFailureCode

/-- The exit code of a run: zero once HALT has stopped the core, none before (R101, R108). -/
def exitCode (s : State) : Option Nat := if s.running then none else some 0

end Sys2Proof.Machine
end

