-- ==== Sys2Proof/Machine/Keyboard.lean ====
section
/-! DEFINITION. The keyboard agent's two steps (R23, D7). It touches nothing but `console.input` and
`console.closed` (R39, R94). -/

namespace Sys2Proof.Machine

/-- Append a character to the input; enabled while the input is not closed (R23). -/
def typeChar (c : Byte) (s : State) : Option State :=
  if s.console.closed then none
  else some { s with console := { s.console with input := s.console.input ++ [c] } }

/-- The input has ended: no character will be appended again (R23). -/
def closeInput (s : State) : State := { s with console := { s.console with closed := true } }

end Sys2Proof.Machine
end

