-- ==== Sys2Proof/Machine/System.lean ====
section
/-! DEFINITION. The core and the keyboard agent together: their steps interleave freely (R23, R87), so a run
is given by a schedule, a list of which agent moves next (log entry 11). -/

namespace Sys2Proof.Machine

/-- Who moves: the core, or the keyboard agent with a character or with the end of the input. -/
inductive Event where
  | core
  | typed (c : Byte)
  | closed
  deriving DecidableEq, Repr

/-- One move of the system; nothing when the agent has no step from this state. -/
def systemStep (e : Event) (s : State) : Option State :=
  match e with
  | .core =>
    match step s with
    | .next t => some t
    | .fault _ => none
    | .refused _ => none
  | .typed c => typeChar c s
  | .closed => some (closeInput s)

/-- The state a schedule leads to; nothing when a move of it was not enabled. -/
def runSchedule : List Event → State → Option State
  | [], s => some s
  | e :: rest, s =>
    match systemStep e s with
    | some t => runSchedule rest t
    | none => none

end Sys2Proof.Machine
end

