-- ==== Sys2Proof/Safety.lean ====
section
/-! DEFINITION. The terms claims are made in: the invariant, the end of a run, waiting, what an instruction may
read or write (the tables of R14, R20, R34), and the rules of 10_state.md to 43_trap.md as relations between
the state before and the state after. -/

namespace Sys2Proof.Machine

/-! ### Whole-machine notions -/

/-- The invariant: the storage is in canonical form. -/
def MachineInv (s : State) : Prop := s.store.wf = true

/-- The end of a run: `running` is false (R108). -/
def Final (s : State) : Prop := s.running = false

/-- The observation of a final state (R108): "the tuple of R0 to R7, pc, cond, the memory Store, and
console.output". -/
structure Observation where
  x : RegFile
  pc : Word
  cond : Cond
  store : Memory
  output : List Byte
  deriving DecidableEq, Repr

/-- What is observed of a state, when it is final (R108). -/
def observe (s : State) : Option Observation :=
  if s.running then none
  else some { x := s.x, pc := s.pc, cond := s.cond, store := s.store, output := s.console.output }

/-- The core waits: it runs, and the word it fetches is a GETC or IN whose read cannot complete because no
character is pending and the input is not closed (R106). -/
def Waits (s : State) : Prop :=
  s.running = true ∧ s.pc ≠ 0xFE00#16 ∧
    (decode (storeAt s.pc s) = .trap 0x20#8 ∨ decode (storeAt s.pc s) = .trap 0x23#8) ∧
    s.console.input = [] ∧ s.console.closed = false

/-! ### What an instruction may read or write -/

/-- The registers an instruction writes (R14). -/
def writtenRegs : Instr → List Reg
  | .br .. => []
  | .addReg dr _ _ => [dr]
  | .addImm dr _ _ => [dr]
  | .ld dr _ => [dr]
  | .st .. => []
  | .jsr .. => [.r7]
  | .jsrr .. => [.r7]
  | .andReg dr _ _ => [dr]
  | .andImm dr _ _ => [dr]
  | .ldr dr _ _ => [dr]
  | .str .. => []
  | .rti => []
  | .not dr _ => [dr]
  | .ldi dr _ => [dr]
  | .sti .. => []
  | .jmp .. => []
  | .res => []
  | .lea dr _ => [dr]
  | .trap vect => if vect = 0x20#8 ∨ vect = 0x23#8 then [.r0, .r7] else [.r7]

/-- The register whose value a flag-defining instruction gives `SetCC` (R20); nothing for the others. -/
def flagReg : Instr → Option Reg
  | .br .. => none
  | .addReg dr _ _ => some dr
  | .addImm dr _ _ => some dr
  | .ld dr _ => some dr
  | .st .. => none
  | .jsr .. => none
  | .jsrr .. => none
  | .andReg dr _ _ => some dr
  | .andImm dr _ _ => some dr
  | .ldr dr _ _ => some dr
  | .str .. => none
  | .rti => none
  | .not dr _ => some dr
  | .ldi dr _ => some dr
  | .sti .. => none
  | .jmp .. => none
  | .res => none
  | .lea dr _ => some dr
  | .trap vect => if vect = 0x20#8 ∨ vect = 0x23#8 then some .r0 else none

/-- The address an instruction stores its register to (R34): the address its meaning computes. -/
def storedAddress (i : Instr) (s : State) : Option Word :=
  match i with
  | .st _ offset => some (pcRelative offset s)
  | .sti _ offset => some (pcIndirect offset s).1
  | .str _ base offset => some (baseOffset base offset s)
  | .br .. | .addReg .. | .addImm .. | .ld .. | .jsr .. | .jsrr .. | .andReg .. | .andImm .. => none
  | .ldr .. | .rti | .not .. | .ldi .. | .jmp .. | .res | .lea .. | .trap .. => none

/-- The instructions that read words through the memory unit, or may, after their fetch (R34). -/
def mayPoll : Instr → Bool
  | .ld .. | .ldi .. | .ldr .. | .sti .. => true
  | .trap vect => vect == 0x22#8 || vect == 0x24#8
  | .br .. | .addReg .. | .addImm .. | .st .. | .jsr .. | .jsrr .. | .andReg .. | .andImm .. => false
  | .str .. | .rti | .not .. | .jmp .. | .res | .lea .. => false

/-- The `n` words from address `a` on are all nonzero. -/
def nonzeroWords (s : State) : Nat → Word → Bool
  | 0, _ => true
  | n + 1, a => storeAt a s != 0x0000#16 && nonzeroWords s n (a + 1#16)

/-- The string at address `a` comes to 0xFE00 before it ends: the words from `a` up to there are all nonzero. -/
def meetsKbsr (a : Word) (s : State) : Bool := nonzeroWords s (0xFE00#16 - a).toNat a

/-- Whether an instruction looks at the console's input from this state: a load or pointer read of 0xFE00, a
GETC or IN, and, where string reads poll, a PUTS or PUTSP whose string comes to 0xFE00 (R34, R87). -/
def readsInput (i : Instr) (s : State) : Bool :=
  match i with
  | .ld _ offset => pcRelative offset s == 0xFE00#16
  | .ldr _ base offset => baseOffset base offset s == 0xFE00#16
  | .ldi _ offset => pcRelative offset s == 0xFE00#16 || storeAt (pcRelative offset s) s == 0xFE00#16
  | .sti _ offset => pcRelative offset s == 0xFE00#16
  | .trap vect => vect == 0x20#8 || vect == 0x23#8 ||
      ((vect == 0x22#8 || vect == 0x24#8) && meetsKbsr (readReg .r0 s) s &&
        Config.params.trapReadsPoll)
  | .br .. | .addReg .. | .addImm .. | .st .. | .jsr .. | .jsrr .. | .andReg .. | .andImm .. => false
  | .str .. | .rti | .not .. | .jmp .. | .res | .lea .. => false

/-! ### Rules as relations between the state before and the state after -/

/-- The condition code R19 gives a word, by its signed value. -/
def signFlag (v : Word) : Cond :=
  if v.toInt = 0 then .z else if v.toInt < 0 then .n else .p

/-- `x[dr] <- v` and `SetCC(x[dr])`, and nothing else (R19, R20). -/
def DefinesReg (dr : Reg) (v : Word) (s t : State) : Prop :=
  readReg dr t = v ∧ t.cond = signFlag v ∧ (∀ r, r ≠ dr → readReg r t = readReg r s) ∧
    t.pc = s.pc ∧ t.running = s.running ∧ t.store = s.store ∧ t.console = s.console

/-- `MemWrite(a, 1, v)`, and nothing else (R30): the word at `a` is `v`, every other word is as before. -/
def StoresWord (a v : Word) (s t : State) : Prop :=
  storeAt a t = v ∧ (∀ b, b ≠ a → storeAt b t = storeAt b s) ∧
    t.x = s.x ∧ t.pc = s.pc ∧ t.cond = s.cond ∧ t.running = s.running ∧ t.console = s.console

/-- `MemRead(a, 1)` answers `v` and leaves `t` (R31, R32): at every address but 0xFE00 the stored word with
nothing changed, at 0xFE00 the poll. -/
def ReadsWord (a v : Word) (s t : State) : Prop :=
  t.x = s.x ∧ t.pc = s.pc ∧ t.cond = s.cond ∧ t.running = s.running ∧
    t.console.closed = s.console.closed ∧ t.console.output = s.console.output ∧
    if a = 0xFE00#16 then
      v = storeAt 0xFE00#16 t ∧
      match s.console.input with
      | c :: rest =>
        storeAt 0xFE00#16 t = 0x8000#16 ∧ storeAt 0xFE02#16 t = c.zeroExtend 16 ∧ t.console.input = rest ∧
          (∀ b, b ≠ 0xFE00#16 → b ≠ 0xFE02#16 → storeAt b t = storeAt b s)
      | [] =>
        storeAt 0xFE00#16 t = 0x0000#16 ∧ t.console.input = [] ∧
          (∀ b, b ≠ 0xFE00#16 → storeAt b t = storeAt b s)
    else v = storeAt a s ∧ t.store = s.store ∧ t.console.input = s.console.input

/-- What every TRAP but GETC and IN leaves of the registers: R7 holds the return address, nothing else has
changed (R73, R82). -/
def TrapRegs (s t : State) : Prop :=
  readReg .r7 t = s.pc ∧ (∀ r, r ≠ .r7 → readReg r t = readReg r s) ∧ t.pc = s.pc ∧ t.cond = s.cond

/-- The words from address `a` on are `ws`, none of them 0x0000. -/
def wordsAt (s : State) : Word → List Word → Bool
  | _, [] => true
  | a, w :: ws => storeAt a s == w && w != 0x0000#16 && wordsAt s (a + 1#16) ws

/-- The string at address `a` is `ws`: those words, none of them 0x0000, and then a word 0x0000 (R77). -/
def stringAt (s : State) (a : Word) (ws : List Word) : Bool :=
  wordsAt s a ws && storeAt (a + BitVec.ofNat 16 ws.length) s == 0x0000#16

/-- The loop of R77 over polling reads, from address `a` and state `s`, meets the nonzero words `ws` and then
0x0000, and its reads leave `t`. -/
def ReadsString (a : Word) : List Word → State → State → Prop
  | [], s, t => ReadsWord a 0x0000#16 s t
  | w :: ws, s, t => w ≠ 0x0000#16 ∧ ∃ u, ReadsWord a w s u ∧ ReadsString (a + 1#16) ws u t

/-- None of the `n + 1` addresses from `a` on is 0xFE00. -/
def avoidsKbsr (a : Word) : Nat → Bool
  | 0 => a != 0xFE00#16
  | n + 1 => a != 0xFE00#16 && avoidsKbsr (a + 1#16) n

/-- The characters of a string of words, two per word: the low byte, then the high byte if nonzero (R79). -/
def packedChars : List Word → List Byte
  | [] => []
  | w :: ws =>
    (if w.toNat < 256 then [BitVec.ofNat 8 w.toNat]
      else [BitVec.ofNat 8 (w.toNat % 256), BitVec.ofNat 8 (w.toNat / 256)]) ++ packedChars ws

end Sys2Proof.Machine
end

