-- ==== Sys2Proof/Certificates/Slice0/Obligations.lean ====
section
/-! DEFINITION. The statements for the provers. Each docstring names the rule it formalises; OBLIGATIONS.json
lists them in this order. `exec i s` runs on the state after the fetch, so `s.pc` is the incremented PC. -/

open Sys2Proof Sys2Proof.Machine

/-! ### Encoding (30_encoding.md) -/

/-- Decoding an encoded instruction gives it back, with every operand at every value (R45, R46). -/
def Obligations.DecodeEncodeRoundTrip : Prop := ∀ i : Instr, decode (encode i) = i

/-- Encoding a decoded word gives the word back exactly when its ignored bits hold what R45 shows (log
entry 5 for RES). -/
def Obligations.EncodeDecodeOnCanonicalWords : Prop :=
  ∀ w : Word, encode (decode w) = w ↔ canonicalWord w = true

/-- The match and mask of every row of spec/opcode_table.json select its form, with its fields at the bits
R44 names (the spec's decision D2, log entry 3). -/
def Obligations.DecodeFollowsMatchAndMask : Prop :=
  ∀ w : Word,
    let reg := fun lo => Reg.ofBits (w.extractLsb' lo 3)
    (w &&& 0xF000#16 = 0x0000#16 →
      decode w = .br (w.getLsbD 11) (w.getLsbD 10) (w.getLsbD 9) (w.extractLsb' 0 9)) ∧
    (w &&& 0xF020#16 = 0x1000#16 → decode w = .addReg (reg 9) (reg 6) (reg 0)) ∧
    (w &&& 0xF020#16 = 0x1020#16 → decode w = .addImm (reg 9) (reg 6) (w.extractLsb' 0 5)) ∧
    (w &&& 0xF000#16 = 0x2000#16 → decode w = .ld (reg 9) (w.extractLsb' 0 9)) ∧
    (w &&& 0xF000#16 = 0x3000#16 → decode w = .st (reg 9) (w.extractLsb' 0 9)) ∧
    (w &&& 0xF800#16 = 0x4800#16 → decode w = .jsr (w.extractLsb' 0 11)) ∧
    (w &&& 0xF800#16 = 0x4000#16 → decode w = .jsrr (reg 6)) ∧
    (w &&& 0xF020#16 = 0x5000#16 → decode w = .andReg (reg 9) (reg 6) (reg 0)) ∧
    (w &&& 0xF020#16 = 0x5020#16 → decode w = .andImm (reg 9) (reg 6) (w.extractLsb' 0 5)) ∧
    (w &&& 0xF000#16 = 0x6000#16 → decode w = .ldr (reg 9) (reg 6) (w.extractLsb' 0 6)) ∧
    (w &&& 0xF000#16 = 0x7000#16 → decode w = .str (reg 9) (reg 6) (w.extractLsb' 0 6)) ∧
    (w &&& 0xF000#16 = 0x8000#16 → decode w = .rti) ∧
    (w &&& 0xF000#16 = 0x9000#16 → decode w = .not (reg 9) (reg 6)) ∧
    (w &&& 0xF000#16 = 0xA000#16 → decode w = .ldi (reg 9) (w.extractLsb' 0 9)) ∧
    (w &&& 0xF000#16 = 0xB000#16 → decode w = .sti (reg 9) (w.extractLsb' 0 9)) ∧
    (w &&& 0xF000#16 = 0xC000#16 → decode w = .jmp (reg 6)) ∧
    (w &&& 0xF000#16 = 0xD000#16 → decode w = .res) ∧
    (w &&& 0xF000#16 = 0xE000#16 → decode w = .lea (reg 9) (w.extractLsb' 0 9)) ∧
    (w &&& 0xF000#16 = 0xF000#16 → decode w = .trap (w.extractLsb' 0 8))

/-- Two words that differ only in the bits R47 lists as ignored are the same instruction (the spec's decision
D4). -/
def Obligations.IgnoredBitsDoNotMatter : Prop :=
  ∀ w v : Word, w &&& ~~~ ignoredBits w = v &&& ~~~ ignoredBits w → decode v = decode w

/-- Words the spec writes out, one of each family, are the instructions they stand for (R43, R44, R45, R47; the
layout is the spec's decision D2, log entry 3). -/
def Obligations.DecodeOfWrittenWords : Prop :=
  decode 0x1042#16 = .addReg .r0 .r1 .r2 ∧ decode 0x1070#16 = .addImm .r0 .r1 0b10000#5 ∧
  decode 0x9040#16 = .not .r0 .r1 ∧ decode 0x0402#16 = .br false true false 2#9 ∧
  decode 0xC1C0#16 = .jmp .r7 ∧ decode 0x41C0#16 = .jsrr .r7 ∧ decode 0x4C00#16 = .jsr 0x400#11 ∧
  decode 0xA204#16 = .ldi .r1 4#9 ∧ decode 0x68BB#16 = .ldr .r4 .r2 0b111011#6 ∧
  decode 0x33FF#16 = .st .r1 0x1FF#9 ∧ decode 0xF020#16 = .trap 0x20#8 ∧ decode 0xD123#16 = .res

/-- The words R50 lists as no-ops change nothing but `pc`, which the fetch has advanced. -/
def Obligations.NoOpWordsChangeNothing : Prop :=
  ∀ (w : Word) (s : State),
    (0x8000 ≤ w.toNat ∧ w.toNat ≤ 0x8FFF ∨ 0xD000 ≤ w.toNat ∧ w.toNat ≤ 0xDFFF ∨ w.toNat ≤ 0x01FF) →
    exec (decode w) s = .next s

/-- Sign extension from every width up to a word, the four the core uses among them: the pseudocode of R8,
and the signed value. -/
def Obligations.SignExtensionKeepsSignedValue : Prop :=
  ∀ n : Nat, 1 ≤ n → n ≤ 16 → ∀ f : BitVec n,
    (sext f).toInt = f.toInt ∧
    sext f = if f.getLsbD (n - 1) then f.setWidth 16 ||| (0xFFFF#16 <<< n) else f.setWidth 16

/-! ### The instruction cycle -/

/-- A step of a running core reads the word at `pc` through the memory unit, sets `pc` to the incremented PC,
and is `exec` of the decoded instruction on that state (R16, R53). -/
def Obligations.StepRunsDecodedInstruction : Prop :=
  ∀ s : State, s.running = true →
    (∃ (w : Word) (u : State), ReadsWord s.pc w s u ∧
      step s = exec (decode w) { u with pc := s.pc + 1#16 }) ∧
    (s.pc ≠ 0xFE00#16 → step s = exec (decode (storeAt s.pc s)) { s with pc := s.pc + 1#16 })

/-- From `running = false` the core has no step (R12, R108). That the model answers the fault `halted` there
is its own choice (log entry 8). -/
def Obligations.HaltedCoreHasNoStep : Prop :=
  ∀ s : State, Final s → step s = .fault .halted ∧ systemStep .core s = none

/-- A word placed where the core fetches next is run by the very next step. -/
def Obligations.PlacedWordIsRun : Prop :=
  ∀ (s : State) (w : Word), s.running = true → s.pc ≠ 0xFE00#16 →
    decodeTableWord 16 w.toNat = some (decode w) ∧
    step (s.withFetchWord 16 w.toNat) =
      exec (decode w) { s.withFetchWord 16 w.toNat with pc := s.pc + 1#16 }

/-- A fetch from 0xFE00 polls, consumes a pending character, and executes a no-op there (R105). -/
def Obligations.FetchAtKbsrIsNoOp : Prop :=
  ∀ s : State, s.running = true → s.pc = 0xFE00#16 →
    ∃ t, step s = .next t ∧ t.pc = 0xFE01#16 ∧ t.x = s.x ∧ t.cond = s.cond ∧ t.running = true ∧
      t.console.input = s.console.input.tail ∧ t.console.output = s.console.output ∧
      (storeAt 0xFE00#16 t = if s.console.input = [] then 0x0000#16 else 0x8000#16) ∧
      (∀ c rest, s.console.input = c :: rest → storeAt 0xFE02#16 t = c.setWidth 16) ∧
      (∀ b, b ≠ 0xFE00#16 → b ≠ 0xFE02#16 → storeAt b t = storeAt b s)

/-! ### Operate (40_operate.md) -/

/-- SetCC: Z exactly when the value is 0, N exactly when bit 15 is set, P otherwise; that is the sign of the
value. The write of a destination register uses it on the just-written value (R19). -/
def Obligations.SetCCFollowsSign : Prop :=
  ∀ (v : Word) (s : State),
    (setCC v s).cond = (if v = 0x0000#16 then .z else if v.getLsbD 15 then .n else .p) ∧
    (setCC v s).cond = signFlag v ∧ setCC v s = { s with cond := (setCC v s).cond } ∧
    ∀ dr, (defineReg dr v s).cond = signFlag (readReg dr (defineReg dr v s))

/-- ADD, register form (R55). -/
def Obligations.AddRegisterResult : Prop :=
  ∀ (dr sr1 sr2 : Reg) (s : State),
    ∃ t, exec (.addReg dr sr1 sr2) s = .next t ∧ DefinesReg dr (readReg sr1 s + readReg sr2 s) s t

/-- ADD, immediate form (R56). -/
def Obligations.AddImmediateResult : Prop :=
  ∀ (dr sr1 : Reg) (imm : BitVec 5) (s : State),
    ∃ t, exec (.addImm dr sr1 imm) s = .next t ∧
      DefinesReg dr (readReg sr1 s + imm.signExtend 16) s t

/-- AND, register form (R57). -/
def Obligations.AndRegisterResult : Prop :=
  ∀ (dr sr1 sr2 : Reg) (s : State),
    ∃ t, exec (.andReg dr sr1 sr2) s = .next t ∧
      DefinesReg dr (readReg sr1 s &&& readReg sr2 s) s t

/-- AND, immediate form (R58). -/
def Obligations.AndImmediateResult : Prop :=
  ∀ (dr sr1 : Reg) (imm : BitVec 5) (s : State),
    ∃ t, exec (.andImm dr sr1 imm) s = .next t ∧
      DefinesReg dr (readReg sr1 s &&& imm.signExtend 16) s t

/-- NOT (R59). -/
def Obligations.NotResult : Prop :=
  ∀ (dr sr : Reg) (s : State),
    ∃ t, exec (.not dr sr) s = .next t ∧ DefinesReg dr (~~~ readReg sr s) s t

/-! ### Control transfer (41_control.md) -/

/-- BR: taken exactly when the bit of the flag `cond` holds is set; then `pc` is the incremented PC plus the
extended offset, and nothing else changes (R60). Which bit tests which flag is the spec's decision D3 (R18, log
entry 4). -/
def Obligations.BranchResult : Prop :=
  ∀ (n z p : Bool) (offset : BitVec 9) (s : State),
    exec (.br n z p offset) s = .next { s with
      pc := if s.cond = .n ∧ n = true ∨ s.cond = .z ∧ z = true ∨ s.cond = .p ∧ p = true
        then s.pc + offset.signExtend 16 else s.pc }

/-- JMP sets `pc` to the base register and changes nothing else (R61). -/
def Obligations.JumpResult : Prop :=
  ∀ (base : Reg) (s : State), exec (.jmp base) s = .next { s with pc := readReg base s }

/-- JSR: R7 gets the incremented PC, `pc` the PC-relative target; nothing else changes (R62). -/
def Obligations.JsrResult : Prop :=
  ∀ (offset : BitVec 11) (s : State),
    ∃ t, exec (.jsr offset) s = .next t ∧ t.pc = s.pc + offset.signExtend 16 ∧
      readReg .r7 t = s.pc ∧ (∀ r, r ≠ .r7 → readReg r t = readReg r s) ∧
      t.cond = s.cond ∧ t.running = s.running ∧ t.store = s.store ∧ t.console = s.console

/-- JSRR: R7 gets the incremented PC, then `pc` gets the base register; with R7 as the base, `pc` stays at the
incremented PC (R63). -/
def Obligations.JsrrResult : Prop :=
  ∀ (base : Reg) (s : State),
    ∃ t, exec (.jsrr base) s = .next t ∧
      t.pc = (if base = .r7 then s.pc else readReg base s) ∧
      readReg .r7 t = s.pc ∧ (∀ r, r ≠ .r7 → readReg r t = readReg r s) ∧
      t.cond = s.cond ∧ t.running = s.running ∧ t.store = s.store ∧ t.console = s.console

/-! ### Memory, loads and stores (20_memory.md, 42_load_store.md) -/

/-- The memory unit's read: the stored word and no change at every address but 0xFE00, the poll at 0xFE00
(R31, R32; that the poll consumes the character is the spec's decision D5). -/
def Obligations.MemReadFollowsPoll : Prop :=
  ∀ (a : Word) (s : State), ReadsWord a (memRead a s).1 s (memRead a s).2

/-- A value stored at 0xFE00 is never observed by a later memory read of 0xFE00, and leaves no trace after
it (R30). -/
def Obligations.StoreToKbsrIsNeverObserved : Prop :=
  ∀ (v : Word) (s : State), MachineInv s →
    memRead 0xFE00#16 (memWrite 0xFE00#16 v s) = memRead 0xFE00#16 s

/-- LD (R66). -/
def Obligations.LoadResult : Prop :=
  ∀ (dr : Reg) (offset : BitVec 9) (s : State),
    ∃ v u t, exec (.ld dr offset) s = .next t ∧
      ReadsWord (s.pc + offset.signExtend 16) v s u ∧ DefinesReg dr v u t

/-- LDI: the pointer read, then the data read (R67). -/
def Obligations.LoadIndirectResult : Prop :=
  ∀ (dr : Reg) (offset : BitVec 9) (s : State),
    ∃ ptr u₁ v u₂ t, exec (.ldi dr offset) s = .next t ∧
      ReadsWord (s.pc + offset.signExtend 16) ptr s u₁ ∧ ReadsWord ptr v u₁ u₂ ∧
      DefinesReg dr v u₂ t

/-- LDR (R68). -/
def Obligations.LoadBaseResult : Prop :=
  ∀ (dr base : Reg) (offset : BitVec 6) (s : State),
    ∃ v u t, exec (.ldr dr base offset) s = .next t ∧
      ReadsWord (readReg base s + offset.signExtend 16) v s u ∧ DefinesReg dr v u t

/-- LEA: the address itself, and the flags from it; no memory access (R69). -/
def Obligations.LoadAddressResult : Prop :=
  ∀ (dr : Reg) (offset : BitVec 9) (s : State),
    ∃ t, exec (.lea dr offset) s = .next t ∧ DefinesReg dr (s.pc + offset.signExtend 16) s t

/-- ST (R70). -/
def Obligations.StoreResult : Prop :=
  ∀ (sr : Reg) (offset : BitVec 9) (s : State),
    ∃ t, exec (.st sr offset) s = .next t ∧
      StoresWord (s.pc + offset.signExtend 16) (readReg sr s) s t

/-- STI: the pointer read, then the store (R71). -/
def Obligations.StoreIndirectResult : Prop :=
  ∀ (sr : Reg) (offset : BitVec 9) (s : State),
    ∃ ptr u t, exec (.sti sr offset) s = .next t ∧
      ReadsWord (s.pc + offset.signExtend 16) ptr s u ∧ StoresWord ptr (readReg sr s) u t

/-- STR (R72). -/
def Obligations.StoreBaseResult : Prop :=
  ∀ (sr base : Reg) (offset : BitVec 6) (s : State),
    ∃ t, exec (.str sr base offset) s = .next t ∧
      StoresWord (readReg base s + offset.signExtend 16) (readReg sr s) s t

/-- A word stored at the address of the next instruction is the word the next fetch reads (R41). 0xFE00, whose
fetch polls, is left out. -/
def Obligations.StoreIsSeenByNextFetch : Prop :=
  ∀ (a v : Word) (s : State), a ≠ 0xFE00#16 → s.running = true → s.pc = a →
    step (memWrite a v s) = exec (decode v) { memWrite a v s with pc := a + 1#16 }

/-! ### RTI and RES (44_reserved.md) -/

/-- RTI and RES do nothing: the only effect of the step is the fetch's (R83, R84). -/
def Obligations.ReservedOpcodesDoNothing : Prop :=
  ∀ s : State, exec .rti s = .next s ∧ exec .res s = .next s

/-! ### TRAP (43_trap.md) -/

/-- GETC with a character pending (R75; zero extension is the spec's decision D6). -/
def Obligations.GetcReadsCharacter : Prop :=
  ∀ (s : State) (c : Byte) (rest : List Byte), s.console.input = c :: rest →
    ∃ t, exec (.trap 0x20#8) s = .next t ∧
      readReg .r0 t = c.setWidth 16 ∧ readReg .r7 t = s.pc ∧
      (∀ r, r ≠ .r0 → r ≠ .r7 → readReg r t = readReg r s) ∧
      t.cond = (if c = 0x00#8 then .z else .p) ∧ t.pc = s.pc ∧ t.running = s.running ∧
      t.store = s.store ∧ t.console = { s.console with input := rest }

/-- IN with a character pending: the prompt, the echo, then R0 (R78; the decisions D6, D13, D14). -/
def Obligations.InPromptsEchoesAndStores : Prop :=
  ∀ (s : State) (c : Byte) (rest : List Byte), s.console.input = c :: rest →
    ∃ t, exec (.trap 0x23#8) s = .next t ∧
      readReg .r0 t = c.setWidth 16 ∧ readReg .r7 t = s.pc ∧
      (∀ r, r ≠ .r0 → r ≠ .r7 → readReg r t = readReg r s) ∧
      t.cond = (if c = 0x00#8 then .z else .p) ∧ t.pc = s.pc ∧ t.running = s.running ∧
      t.store = s.store ∧ t.console.closed = s.console.closed ∧ t.console.input = rest ∧
      t.console.output = s.console.output ++ Config.params.inPrompt ++ [c]

/-- GETC and IN at the end of the input, closed and empty, under every end-of-input policy (R23, R75, R78;
the decision D8). That a hold answers the state before the fetch is the model's choice (log entry 7). -/
def Obligations.EndOfInputFollowsPolicy : Prop :=
  ∀ (p : Config.Params) (s : State), s.console.input = [] → s.console.closed = true →
    match p.eofPolicy with
    | .hold =>
      execTrapWith p 0x20#8 s = .next { s with pc := s.pc - 1#16 } ∧
        execTrapWith p 0x23#8 s = .next { s with pc := s.pc - 1#16 }
    | .value v =>
      (∃ t, execTrapWith p 0x20#8 s = .next t ∧ readReg .r0 t = v ∧ readReg .r7 t = s.pc ∧
        (∀ r, r ≠ .r0 → r ≠ .r7 → readReg r t = readReg r s) ∧ t.cond = signFlag v ∧
        t.pc = s.pc ∧ t.running = s.running ∧ t.store = s.store ∧ t.console = s.console) ∧
      (∃ t, execTrapWith p 0x23#8 s = .next t ∧ readReg .r0 t = v ∧ readReg .r7 t = s.pc ∧
        (∀ r, r ≠ .r0 → r ≠ .r7 → readReg r t = readReg r s) ∧ t.cond = signFlag v ∧
        t.pc = s.pc ∧ t.running = s.running ∧ t.store = s.store ∧
        t.console = { s.console with output := s.console.output ++ p.inPrompt ++ [v.setWidth 8] })

/-- OUT writes the low byte of R0 (R76). -/
def Obligations.OutWritesLowByte : Prop :=
  ∀ s : State, ∃ t, exec (.trap 0x21#8) s = .next t ∧ TrapRegs s t ∧ t.running = s.running ∧
    t.store = s.store ∧
    t.console = { s.console with output := s.console.output ++ [(readReg .r0 s).setWidth 8] }

/-- PUTS writes the low byte of each word of the string in R0 (R77; the decision D10). The string does not
touch 0xFE00 here; the two statements after PUTSP's say what happens there. -/
def Obligations.PutsWritesString : Prop :=
  ∀ (s : State) (ws : List Word), stringAt s (readReg .r0 s) ws = true →
    avoidsKbsr (readReg .r0 s) ws.length = true →
    ∃ t, exec (.trap 0x22#8) s = .next t ∧ TrapRegs s t ∧ t.running = s.running ∧
      t.store = s.store ∧
      t.console = { s.console with
        output := s.console.output ++ ws.map (fun w => w.setWidth 8) }

/-- PUTSP writes the low byte of each word, then its high byte if nonzero (R79). As for PUTS, the string does
not touch 0xFE00. -/
def Obligations.PutspWritesPackedString : Prop :=
  ∀ (s : State) (ws : List Word), stringAt s (readReg .r0 s) ws = true →
    avoidsKbsr (readReg .r0 s) ws.length = true →
    ∃ t, exec (.trap 0x24#8) s = .next t ∧ TrapRegs s t ∧ t.running = s.running ∧
      t.store = s.store ∧
      t.console = { s.console with output := s.console.output ++ packedChars ws }

/-- With direct string reads, PUTS and PUTSP read storage at every address, 0xFE00 too, and change no word
(R77, R79; the decision D9). -/
def Obligations.DirectStringReadsDoNotPoll : Prop :=
  ∀ (p : Config.Params) (s : State) (ws : List Word), p.trapReadsPoll = false →
    stringAt s (readReg .r0 s) ws = true →
    (∃ t, execTrapWith p 0x22#8 s = .next t ∧ TrapRegs s t ∧ t.running = s.running ∧
      t.store = s.store ∧
      t.console = { s.console with
        output := s.console.output ++ ws.map (fun w => w.setWidth 8) }) ∧
    (∃ t, execTrapWith p 0x24#8 s = .next t ∧ TrapRegs s t ∧ t.running = s.running ∧
      t.store = s.store ∧
      t.console = { s.console with output := s.console.output ++ packedChars ws })

/-- With polling string reads, PUTS and PUTSP through 0xFE00 (R32, R77, R79; the decisions D5, D6, D9 and
D10). With no character pending, the string ends at 0xFE00 and the poll leaves 0x0000 there. With one pending,
the word there reads 0x8000, KBDR gets the character, and the string goes on from 0xFE01 in the memory the poll
left. The last clause says it for every string that ends, however often it comes to 0xFE00. -/
def Obligations.PolledStringEndsAtKbsr : Prop :=
  ∀ (p : Config.Params) (s : State) (vect : BitVec 8) (chars : List Word → List Byte),
    p.trapReadsPoll = true →
    (vect = 0x22#8 ∧ chars = List.map (fun w => w.setWidth 8)) ∨
      (vect = 0x24#8 ∧ chars = packedChars) →
    (∀ ws : List Word, wordsAt s (readReg .r0 s) ws = true →
      readReg .r0 s + BitVec.ofNat 16 ws.length = 0xFE00#16 → ws.length < 65536 →
      (s.console.input = [] →
        ∃ t, execTrapWith p vect s = .next t ∧ TrapRegs s t ∧ t.running = s.running ∧
          storeAt 0xFE00#16 t = 0x0000#16 ∧ (∀ b, b ≠ 0xFE00#16 → storeAt b t = storeAt b s) ∧
          t.console = { s.console with output := s.console.output ++ chars ws }) ∧
      (∀ (c : Byte) (rest : List Byte) (after : List Word), s.console.input = c :: rest →
        stringAt (memRead 0xFE00#16 s).2 0xFE01#16 after = true →
        avoidsKbsr 0xFE01#16 after.length = true →
        ∃ t, execTrapWith p vect s = .next t ∧ TrapRegs s t ∧ t.running = s.running ∧
          storeAt 0xFE00#16 t = 0x8000#16 ∧ storeAt 0xFE02#16 t = c.setWidth 16 ∧
          (∀ b, b ≠ 0xFE00#16 → b ≠ 0xFE02#16 → storeAt b t = storeAt b s) ∧
          t.console = { s.console with
            input := rest
            output := s.console.output ++ chars ws ++
              (if vect = 0x22#8 then [0x00#8] else [0x00#8, 0x80#8]) ++ chars after })) ∧
    (∀ (ws : List Word) (u : State), ReadsString (readReg .r0 s) ws s u →
      ∃ t, execTrapWith p vect s = .next t ∧ TrapRegs s t ∧ t.running = s.running ∧
        (∀ b, storeAt b t = storeAt b u) ∧
        t.console = { u.console with output := s.console.output ++ chars ws })

/-- HALT writes the notice and clears `running`; R7 and `pc` are as for every TRAP (R80). -/
def Obligations.HaltStopsTheCore : Prop :=
  ∀ s : State, ∃ t, exec (.trap 0x25#8) s = .next t ∧ TrapRegs s t ∧ Final t ∧
    t.store = s.store ∧
    t.console = { s.console with output := s.console.output ++ Config.params.haltNotice } ∧
    exitCode t = some 0

/-- A trap code with no service writes R7 and nothing else (R81; the decision D18). -/
def Obligations.UnknownTrapWritesOnlyR7 : Prop :=
  ∀ (vect : BitVec 8) (s : State), (vect.toNat < 0x20 ∨ 0x25 < vect.toNat) →
    ∃ t, exec (.trap vect) s = .next t ∧ TrapRegs s t ∧ t.running = s.running ∧
      t.store = s.store ∧ t.console = s.console

/-- Every completed TRAP leaves the incremented PC in R7 and in `pc`, and R1 to R6 unchanged; the only TRAP
step that does not complete is a GETC or IN with no character pending, which puts everything back (R73, R82,
R88). -/
def Obligations.EveryTrapSavesReturnAddress : Prop :=
  ∀ (vect : BitVec 8) (s t : State), exec (.trap vect) s = .next t →
    (readReg .r7 t = s.pc ∧ t.pc = s.pc ∧
      ∀ r, r ≠ .r0 → r ≠ .r7 → readReg r t = readReg r s) ∨
    ((vect = 0x20#8 ∨ vect = 0x23#8) ∧ s.console.input = [] ∧ t = { s with pc := s.pc - 1#16 })

/-- The bound on string reads is exact: if any number of reads meets the end of a string, the machine does,
with the same result (R77; log entry 9). -/
def Obligations.StringBoundIsExact : Prop :=
  ∀ (chars : Word → List Byte) (poll : Bool) (n : Nat) (a : Word) (s t : State),
    emitString chars poll n a s = some t → emitString chars poll (stringFuel s) a s = some t

/-! ### Waiting (R53, R106) -/

/-- A GETC or IN step with no character pending changes nothing at all (R53, R106). -/
def Obligations.WaitingStepChangesNothing : Prop := ∀ s : State, Waits s → step s = .next s

/-- A character's arrival lifts the hold: the very next step completes, with the character in R0 (R73, R75, R78,
R103, R106). Zero extension is the spec's decision D6 (log entry 12). -/
def Obligations.CharacterLiftsTheHold : Prop :=
  ∀ (s : State) (c : Byte), Waits s →
    ∃ u t, systemStep (.typed c) s = some u ∧ systemStep .core u = some t ∧
      readReg .r0 t = c.setWidth 16 ∧ readReg .r7 t = s.pc + 1#16 ∧ t.pc = s.pc + 1#16 ∧
      t.console.input = []

/-! ### Reset, loading and boot (10_state.md, 70_reset_and_hazards.md) -/

/-- The state after reset (R26, R29). The console's input and end are the model's choice (log entry 10). -/
def Obligations.ResetValues : Prop :=
  (∀ r, readReg r State.reset = 0x0000#16) ∧ State.reset.pc = 0x3000#16 ∧ State.reset.cond = .z ∧
  State.reset.running = true ∧ (∀ a, storeAt a State.reset = 0x0000#16) ∧
  State.reset.console.output = []

/-- Loading an image: word k of the payload stands at origin + k - 1, as far as the address space goes, and
every other word is as before; a trailing odd byte changes nothing (R99, R100; the decision D16). -/
def Obligations.ImageWordsLieInSequence : Prop :=
  ∀ (o₁ o₂ : Byte) (payload : List (Byte × Byte)) (odd : List Byte) (m : Memory), m.wf = true →
    odd.length ≤ 1 →
    ∃ m', loadImage (o₁ :: o₂ :: (payload.flatMap fun b => [b.1, b.2]) ++ odd) m = some m' ∧
      m'.wf = true ∧
      ∀ a, a < 65536 →
        m'.read a =
          match payload[a - (o₁.toNat * 256 + o₂.toNat)]? with
          | some b =>
            if o₁.toNat * 256 + o₂.toNat ≤ a then BitVec.ofNat 16 (b.1.toNat * 256 + b.2.toNat)
            else m.read a
          | none => m.read a

/-- Start-up: no path, an unreadable path or a file shorter than one word, and the core executes nothing and
the exit code is nonzero. With one path or more and none of them failing, the core starts. A core that starts is
at 0x3000 with every register 0 and every image loaded, in the order given, into a memory of zeros (R98, R100,
R101; that the two codes differ is DEDUCED, log entry 18). -/
def Obligations.BootStartsOrFails : Prop :=
  boot [] = .noPaths ∧
  (∀ images, images ≠ [] →
    (boot images = .loadFailure ↔
      ∃ f ∈ images, f = none ∨ ∃ b, f = some b ∧ b.length < 2)) ∧
  (∀ images, images ≠ [] → (∀ f ∈ images, ∃ b, f = some b ∧ 2 ≤ b.length) →
    ∃ s, boot images = .started s) ∧
  (∀ images s, boot images = .started s →
    s.x = State.reset.x ∧ s.pc = 0x3000#16 ∧ s.cond = .z ∧ s.running = true ∧
      s.console = State.reset.console ∧ MachineInv s ∧
      images.foldlM (fun m file => file.bind fun bytes => loadImage bytes m) [] = some s.store) ∧
  (∀ (b : Boot) (code : Nat), b.exitCode = some code → code ≠ 0) ∧
  Boot.exitCode .noPaths ≠ Boot.exitCode .loadFailure

/-! ### Whole-machine statements -/

/-- The storage right after reset is in canonical form. -/
def Obligations.ResetMeetsInvariant : Prop := MachineInv State.reset

/-- Every step keeps the storage in canonical form. -/
def Obligations.StepKeepsInvariant : Prop := ∀ s t : State, MachineInv s → step s = .next t → MachineInv t

/-- Every state that a schedule of the core and the keyboard agent reaches from a started machine meets the
invariant (R23, R98; the canonical form is the model's, log entry 1). -/
def Obligations.EveryScheduleKeepsInvariant : Prop :=
  ∀ (images : List (Option (List Byte))) (events : List Event) (s t : State),
    boot images = .started s → runSchedule events s = some t → MachineInv t

/-- `running` is true at reset, is set false only by the HALT trap, and is never true again (R22). -/
def Obligations.OnlyHaltClearsRunning : Prop :=
  State.reset.running = true ∧ ∀ (e : Event) (s t : State), systemStep e s = some t →
    (s.running = true → t.running = false →
      e = .core ∧ s.pc ≠ 0xFE00#16 ∧ decode (storeAt s.pc s) = .trap 0x25#8) ∧
    (s.running = false → t.running = false)

/-- The flag-defining instructions end with SetCC of their register, every other instruction leaves `cond`
(R20). A GETC or IN that holds defines nothing: that it answers the state before the fetch is the model's choice
(R53, log entry 7). -/
def Obligations.FlagsChangeOnlyByDefiningInstructions : Prop :=
  ∀ (i : Instr) (s t : State), exec i s = .next t →
    match flagReg i with
    | some r => t.cond = signFlag (readReg r t) ∨
        ((i = .trap 0x20#8 ∨ i = .trap 0x23#8) ∧ t = { s with pc := s.pc - 1#16 })
    | none => t.cond = s.cond

/-- No register changes but those R14 lists for the instruction. -/
def Obligations.OnlyNamedRegistersChange : Prop :=
  ∀ (i : Instr) (s t : State), exec i s = .next t →
    ∀ r, r ∉ writtenRegs i → readReg r t = readReg r s

/-- No memory word changes but the one ST, STI or STR stores, and KBSR and KBDR by a poll (R34, R82). -/
def Obligations.OnlyStoresAndPollsChangeMemory : Prop :=
  ∀ (i : Instr) (s t : State), exec i s = .next t →
    ∀ b, storeAt b t ≠ storeAt b s →
      storedAddress i s = some b ∨ (mayPoll i = true ∧ (b = 0xFE00#16 ∨ b = 0xFE02#16))

/-- A step of the core only appends to the output, only consumes input from the old end, and never closes the
input; the keyboard agent touches only the input (R23, R103). -/
def Obligations.ConsoleFlowsOneWay : Prop :=
  ∀ s t : State,
    (step s = .next t → s.console.output <+: t.console.output ∧
      t.console.input <:+ s.console.input ∧ t.console.closed = s.console.closed) ∧
    (∀ c, systemStep (.typed c) s = some t →
      t = { s with console := { s.console with input := s.console.input ++ [c] } }) ∧
    (systemStep .closed s = some t → t = { s with console := { s.console with closed := true } })

/-- No instruction raises an error (R12, R48, R85): every instruction but PUTS and PUTSP answers a next state
from every state, and these two do whenever some memory word is 0x0000 (a hold of GETC or IN is such a next
state, log entry 7). -/
def Obligations.EveryInstructionCompletes : Prop :=
  (∀ (i : Instr) (s : State), i ≠ .trap 0x22#8 → i ≠ .trap 0x24#8 → ∃ t, exec i s = .next t) ∧
  (∀ (i : Instr) (s : State), (∃ a, storeAt a s = 0x0000#16) → ∃ t, exec i s = .next t)

/-- With polling string reads every string ends, whatever the memory (R32, R77), because the poll consumes the
characters pending (the spec's decision D5, log entry 13); so every TRAP answers a next state, a GETC or IN that
holds included (log entry 7). -/
def Obligations.PolledStringsAlwaysEnd : Prop :=
  ∀ (p : Config.Params) (vect : BitVec 8) (s : State), p.trapReadsPoll = true →
    ∃ t, execTrapWith p vect s = .next t

/-- A typed character changes nothing an instruction does unless the instruction looks at the input: a PUTS or
PUTSP does so only where string reads poll and its string comes to 0xFE00 (R34, R87). -/
def Obligations.TypingIsUnseenUntilRead : Prop :=
  ∀ (i : Instr) (c : Byte) (s u t : State), readsInput i s = false →
    typeChar c s = some u → exec i s = .next t →
    ∃ t', typeChar c t = some t' ∧ exec i u = .next t'
end

