-- ==== Sys2Proof/Laws/State.lean ====
section
/-! SUPPORT. One lemma per field per update of the state, so that no proof unfolds a record update. -/

namespace Sys2Proof.Machine

/-! ### writeReg -/

@[simp] theorem writeReg_x (r : Reg) (v : Word) (s : State) :
    (writeReg r v s).x = s.x.write r v := rfl
@[simp] theorem writeReg_pc (r : Reg) (v : Word) (s : State) : (writeReg r v s).pc = s.pc := rfl
@[simp] theorem writeReg_cond (r : Reg) (v : Word) (s : State) :
    (writeReg r v s).cond = s.cond := rfl
@[simp] theorem writeReg_running (r : Reg) (v : Word) (s : State) :
    (writeReg r v s).running = s.running := rfl
@[simp] theorem writeReg_store (r : Reg) (v : Word) (s : State) :
    (writeReg r v s).store = s.store := rfl
@[simp] theorem writeReg_console (r : Reg) (v : Word) (s : State) :
    (writeReg r v s).console = s.console := rfl

/-! ### setPc -/

@[simp] theorem setPc_x (v : Word) (s : State) : (setPc v s).x = s.x := rfl
@[simp] theorem setPc_pc (v : Word) (s : State) : (setPc v s).pc = v := rfl
@[simp] theorem setPc_cond (v : Word) (s : State) : (setPc v s).cond = s.cond := rfl
@[simp] theorem setPc_running (v : Word) (s : State) : (setPc v s).running = s.running := rfl
@[simp] theorem setPc_store (v : Word) (s : State) : (setPc v s).store = s.store := rfl
@[simp] theorem setPc_console (v : Word) (s : State) : (setPc v s).console = s.console := rfl

/-! ### setCond -/

@[simp] theorem setCond_x (c : Cond) (s : State) : (setCond c s).x = s.x := rfl
@[simp] theorem setCond_pc (c : Cond) (s : State) : (setCond c s).pc = s.pc := rfl
@[simp] theorem setCond_cond (c : Cond) (s : State) : (setCond c s).cond = c := rfl
@[simp] theorem setCond_running (c : Cond) (s : State) : (setCond c s).running = s.running := rfl
@[simp] theorem setCond_store (c : Cond) (s : State) : (setCond c s).store = s.store := rfl
@[simp] theorem setCond_console (c : Cond) (s : State) : (setCond c s).console = s.console := rfl

/-! ### stopRunning -/

@[simp] theorem stopRunning_x (s : State) : (stopRunning s).x = s.x := rfl
@[simp] theorem stopRunning_pc (s : State) : (stopRunning s).pc = s.pc := rfl
@[simp] theorem stopRunning_cond (s : State) : (stopRunning s).cond = s.cond := rfl
@[simp] theorem stopRunning_running (s : State) : (stopRunning s).running = false := rfl
@[simp] theorem stopRunning_store (s : State) : (stopRunning s).store = s.store := rfl
@[simp] theorem stopRunning_console (s : State) : (stopRunning s).console = s.console := rfl

/-! ### setStore -/

@[simp] theorem setStore_x (a v : Word) (s : State) : (setStore a v s).x = s.x := rfl
@[simp] theorem setStore_pc (a v : Word) (s : State) : (setStore a v s).pc = s.pc := rfl
@[simp] theorem setStore_cond (a v : Word) (s : State) : (setStore a v s).cond = s.cond := rfl
@[simp] theorem setStore_running (a v : Word) (s : State) :
    (setStore a v s).running = s.running := rfl
@[simp] theorem setStore_store (a v : Word) (s : State) :
    (setStore a v s).store = s.store.write a.toNat v := rfl
@[simp] theorem setStore_console (a v : Word) (s : State) :
    (setStore a v s).console = s.console := rfl

/-! ### memWrite -/

@[simp] theorem memWrite_x (a v : Word) (s : State) : (memWrite a v s).x = s.x := rfl
@[simp] theorem memWrite_pc (a v : Word) (s : State) : (memWrite a v s).pc = s.pc := rfl
@[simp] theorem memWrite_cond (a v : Word) (s : State) : (memWrite a v s).cond = s.cond := rfl
@[simp] theorem memWrite_running (a v : Word) (s : State) :
    (memWrite a v s).running = s.running := rfl
@[simp] theorem memWrite_store (a v : Word) (s : State) :
    (memWrite a v s).store = s.store.write a.toNat v := rfl
@[simp] theorem memWrite_console (a v : Word) (s : State) :
    (memWrite a v s).console = s.console := rfl

/-! ### consoleWrite -/

@[simp] theorem consoleWrite_x (c : Byte) (s : State) : (consoleWrite c s).x = s.x := rfl
@[simp] theorem consoleWrite_pc (c : Byte) (s : State) : (consoleWrite c s).pc = s.pc := rfl
@[simp] theorem consoleWrite_cond (c : Byte) (s : State) : (consoleWrite c s).cond = s.cond := rfl
@[simp] theorem consoleWrite_running (c : Byte) (s : State) :
    (consoleWrite c s).running = s.running := rfl
@[simp] theorem consoleWrite_store (c : Byte) (s : State) :
    (consoleWrite c s).store = s.store := rfl
@[simp] theorem consoleWrite_console (c : Byte) (s : State) :
    (consoleWrite c s).console = { s.console with output := s.console.output ++ [c] } := rfl

/-! ### setCC -/

@[simp] theorem setCC_x (v : Word) (s : State) : (setCC v s).x = s.x := rfl
@[simp] theorem setCC_pc (v : Word) (s : State) : (setCC v s).pc = s.pc := rfl
@[simp] theorem setCC_cond (v : Word) (s : State) : (setCC v s).cond = flagOf v := rfl
@[simp] theorem setCC_running (v : Word) (s : State) : (setCC v s).running = s.running := rfl
@[simp] theorem setCC_store (v : Word) (s : State) : (setCC v s).store = s.store := rfl
@[simp] theorem setCC_console (v : Word) (s : State) : (setCC v s).console = s.console := rfl

/-! ### holdStep -/

@[simp] theorem holdStep_x (s : State) : (holdStep s).x = s.x := rfl
@[simp] theorem holdStep_pc (s : State) : (holdStep s).pc = s.pc - 1#16 := rfl
@[simp] theorem holdStep_cond (s : State) : (holdStep s).cond = s.cond := rfl
@[simp] theorem holdStep_running (s : State) : (holdStep s).running = s.running := rfl
@[simp] theorem holdStep_store (s : State) : (holdStep s).store = s.store := rfl
@[simp] theorem holdStep_console (s : State) : (holdStep s).console = s.console := rfl

/-! ### enterTrap -/

@[simp] theorem enterTrap_x (s : State) : (enterTrap s).x = s.x.write .r7 s.pc := rfl
@[simp] theorem enterTrap_pc (s : State) : (enterTrap s).pc = s.pc := rfl
@[simp] theorem enterTrap_cond (s : State) : (enterTrap s).cond = s.cond := rfl
@[simp] theorem enterTrap_running (s : State) : (enterTrap s).running = s.running := rfl
@[simp] theorem enterTrap_store (s : State) : (enterTrap s).store = s.store := rfl
@[simp] theorem enterTrap_console (s : State) : (enterTrap s).console = s.console := rfl

/-! ### closeInput -/

@[simp] theorem closeInput_x (s : State) : (closeInput s).x = s.x := rfl
@[simp] theorem closeInput_pc (s : State) : (closeInput s).pc = s.pc := rfl
@[simp] theorem closeInput_cond (s : State) : (closeInput s).cond = s.cond := rfl
@[simp] theorem closeInput_running (s : State) : (closeInput s).running = s.running := rfl
@[simp] theorem closeInput_store (s : State) : (closeInput s).store = s.store := rfl
@[simp] theorem closeInput_console (s : State) :
    (closeInput s).console = { s.console with closed := true } := rfl

end Sys2Proof.Machine
end

