-- ==== Sys2Proof/Laws/Registers.lean ====
section
/-! SUPPORT. The register file: a read after a write, register reads through every update, and the spec of
`defineReg`. -/

namespace Sys2Proof.Machine

theorem RegFile.read_write_same (x : RegFile) (r : Reg) (v : Word) : (x.write r v).read r = v := by
  cases r <;> rfl

theorem RegFile.read_write_ne (x : RegFile) {r q : Reg} (h : q ≠ r) (v : Word) :
    (x.write r v).read q = x.read q := by
  cases r <;> cases q <;> first | rfl | exact absurd rfl h

theorem RegFile.write_read (x : RegFile) (r : Reg) : x.write r (x.read r) = x := by
  cases r <;> rfl

/-- Two register files with the same eight values are equal. -/
theorem RegFile.ext_read {x y : RegFile} (h : ∀ r, x.read r = y.read r) : x = y := by
  obtain ⟨⟩ := x
  obtain ⟨⟩ := y
  have h0 := h .r0
  have h1 := h .r1
  have h2 := h .r2
  have h3 := h .r3
  have h4 := h .r4
  have h5 := h .r5
  have h6 := h .r6
  have h7 := h .r7
  simp only [RegFile.read] at h0 h1 h2 h3 h4 h5 h6 h7
  subst_vars
  rfl

theorem readReg_writeReg_same (r : Reg) (v : Word) (s : State) : readReg r (writeReg r v s) = v :=
  RegFile.read_write_same s.x r v

theorem readReg_writeReg_ne {r q : Reg} (h : q ≠ r) (v : Word) (s : State) :
    readReg q (writeReg r v s) = readReg q s :=
  RegFile.read_write_ne s.x h v

/-- A register read sees only the register file. -/
theorem readReg_congr {s t : State} (h : t.x = s.x) (r : Reg) : readReg r t = readReg r s := by
  simp only [readReg, h]

@[simp] theorem readReg_setPc (r : Reg) (v : Word) (s : State) : readReg r (setPc v s) = readReg r s := rfl
@[simp] theorem readReg_setCond (r : Reg) (c : Cond) (s : State) :
    readReg r (setCond c s) = readReg r s := rfl
@[simp] theorem readReg_setCC (r : Reg) (v : Word) (s : State) : readReg r (setCC v s) = readReg r s := rfl
@[simp] theorem readReg_stopRunning (r : Reg) (s : State) : readReg r (stopRunning s) = readReg r s := rfl
@[simp] theorem readReg_setStore (r : Reg) (a v : Word) (s : State) :
    readReg r (setStore a v s) = readReg r s := rfl
@[simp] theorem readReg_memWrite (r : Reg) (a v : Word) (s : State) :
    readReg r (memWrite a v s) = readReg r s := rfl
@[simp] theorem readReg_consoleWrite (r : Reg) (c : Byte) (s : State) :
    readReg r (consoleWrite c s) = readReg r s := rfl
@[simp] theorem readReg_holdStep (r : Reg) (s : State) : readReg r (holdStep s) = readReg r s := rfl

/-! ### `defineReg`: the destination and the flag, nothing else -/

@[simp] theorem defineReg_x (dr : Reg) (v : Word) (s : State) :
    (defineReg dr v s).x = s.x.write dr v := rfl
@[simp] theorem defineReg_pc (dr : Reg) (v : Word) (s : State) : (defineReg dr v s).pc = s.pc := rfl
@[simp] theorem defineReg_running (dr : Reg) (v : Word) (s : State) :
    (defineReg dr v s).running = s.running := rfl
@[simp] theorem defineReg_store (dr : Reg) (v : Word) (s : State) :
    (defineReg dr v s).store = s.store := rfl
@[simp] theorem defineReg_console (dr : Reg) (v : Word) (s : State) :
    (defineReg dr v s).console = s.console := rfl
@[simp] theorem defineReg_cond (dr : Reg) (v : Word) (s : State) :
    (defineReg dr v s).cond = flagOf v := by
  simp only [defineReg, setCC_cond, readReg_writeReg_same]

theorem readReg_defineReg_same (dr : Reg) (v : Word) (s : State) :
    readReg dr (defineReg dr v s) = v :=
  readReg_writeReg_same dr v s

theorem readReg_defineReg_ne {dr r : Reg} (h : r ≠ dr) (v : Word) (s : State) :
    readReg r (defineReg dr v s) = readReg r s :=
  readReg_writeReg_ne h v s

/-! ### Trap entry -/

theorem readReg_enterTrap_r7 (s : State) : readReg .r7 (enterTrap s) = s.pc :=
  readReg_writeReg_same .r7 s.pc s

theorem readReg_enterTrap_ne {r : Reg} (h : r ≠ .r7) (s : State) :
    readReg r (enterTrap s) = readReg r s :=
  readReg_writeReg_ne h s.pc s

end Sys2Proof.Machine
end

