-- ==== Sys2Proof/Laws/Console.lean ====
section
/-! SUPPORT. The console: what taking a character, reading and writing can do (R23). -/

namespace Sys2Proof.Machine

/-- The state with the console's input replaced: what taking a character changes. -/
theorem takeChar_cons {s : State} {c : Byte} {rest : List Byte} (h : s.console.input = c :: rest) :
    takeChar s = some (c, { s with console := { s.console with input := rest } }) := by
  simp only [takeChar, h]

theorem takeChar_nil {s : State} (h : s.console.input = []) : takeChar s = none := by
  simp only [takeChar, h]

theorem takeChar_isSome (s : State) : (takeChar s).isSome = consoleAvail s := by
  cases h : s.console.input <;> simp [takeChar, consoleAvail, h]

/-- Everything `takeChar` can do. -/
theorem takeChar_cases {s t : State} {c : Byte} (h : takeChar s = some (c, t)) :
    ∃ rest, s.console.input = c :: rest ∧
      t = { s with console := { s.console with input := rest } } := by
  cases hi : s.console.input with
  | nil => simp [takeChar_nil hi] at h
  | cons d rest =>
    rw [takeChar_cons hi] at h
    simp only [Option.some.injEq, Prod.mk.injEq] at h
    exact ⟨rest, by rw [h.1], h.2.symm⟩

/-- Everything `consoleRead` can do when it answers. -/
theorem consoleRead_cases {policy : Config.EofPolicy} {s t : State} {w : Word}
    (h : consoleRead policy s = some (w, t)) :
    (∃ c rest, s.console.input = c :: rest ∧ w = zextChar c ∧
      t = { s with console := { s.console with input := rest } }) ∨
    (s.console.input = [] ∧ s.console.closed = true ∧ policy = .value w ∧ t = s) := by
  cases hi : s.console.input with
  | cons c rest =>
    simp only [consoleRead, takeChar_cons hi, Option.some.injEq, Prod.mk.injEq] at h
    exact Or.inl ⟨c, rest, rfl, h.1.symm, h.2.symm⟩
  | nil =>
    cases hc : s.console.closed with
    | false => simp [consoleRead, takeChar_nil hi, hc] at h
    | true =>
      cases policy with
      | hold => simp [consoleRead, takeChar_nil hi, hc] at h
      | value v =>
        simp only [consoleRead, takeChar_nil hi, hc, if_true, Option.some.injEq, Prod.mk.injEq] at h
        exact Or.inr ⟨rfl, rfl, by rw [h.1], h.2.symm⟩

/-- When the read holds, no character is pending. -/
theorem consoleRead_none {policy : Config.EofPolicy} {s : State} (h : consoleRead policy s = none) :
    s.console.input = [] ∧ (s.console.closed = true → policy = .hold) := by
  cases hi : s.console.input with
  | cons c rest => simp [consoleRead, takeChar_cons hi] at h
  | nil =>
    refine ⟨rfl, fun hc => ?_⟩
    cases policy with
    | hold => rfl
    | value v => simp [consoleRead, takeChar_nil hi, hc] at h

theorem consoleRead_cons (policy : Config.EofPolicy) {s : State} {c : Byte} {rest : List Byte}
    (h : s.console.input = c :: rest) :
    consoleRead policy s =
      some (zextChar c, { s with console := { s.console with input := rest } }) := by
  simp only [consoleRead, takeChar_cons h]

theorem consoleRead_open (policy : Config.EofPolicy) {s : State} (hi : s.console.input = [])
    (hc : s.console.closed = false) : consoleRead policy s = none := by
  simp [consoleRead, takeChar_nil hi, hc]

/-- Writing a list of characters appends it to the output and changes nothing else. -/
theorem consoleWriteAll_eq (cs : List Byte) (s : State) :
    consoleWriteAll cs s =
      { s with console := { s.console with output := s.console.output ++ cs } } := rfl

/-- Writing a list is writing its characters one after another. -/
theorem consoleWriteAll_eq_foldl (cs : List Byte) (s : State) :
    consoleWriteAll cs s = cs.foldl (fun t c => consoleWrite c t) s := by
  induction cs generalizing s with
  | nil => simp [consoleWriteAll]
  | cons c cs ih =>
    rw [List.foldl_cons, ← ih]
    simp [consoleWriteAll, consoleWrite]

@[simp] theorem consoleWriteAll_x (cs : List Byte) (s : State) : (consoleWriteAll cs s).x = s.x := by
  rw [consoleWriteAll_eq]
@[simp] theorem consoleWriteAll_pc (cs : List Byte) (s : State) : (consoleWriteAll cs s).pc = s.pc := by
  rw [consoleWriteAll_eq]
@[simp] theorem consoleWriteAll_cond (cs : List Byte) (s : State) :
    (consoleWriteAll cs s).cond = s.cond := by
  rw [consoleWriteAll_eq]
@[simp] theorem consoleWriteAll_running (cs : List Byte) (s : State) :
    (consoleWriteAll cs s).running = s.running := by
  rw [consoleWriteAll_eq]
@[simp] theorem consoleWriteAll_store (cs : List Byte) (s : State) :
    (consoleWriteAll cs s).store = s.store := by
  rw [consoleWriteAll_eq]
@[simp] theorem consoleWriteAll_console (cs : List Byte) (s : State) :
    (consoleWriteAll cs s).console =
      { s.console with output := s.console.output ++ cs } := by
  rw [consoleWriteAll_eq]

end Sys2Proof.Machine
end

