-- ==== Sys2Proof/Laws/Decode.lean ====
section
/-! SUPPORT. Fields of words: registers and their 3-bit numbers, and a field of a concatenation. -/

namespace Sys2Proof

@[simp] theorem Reg.ofBits_toBits (r : Reg) : Reg.ofBits r.toBits = r := by cases r <;> rfl

@[simp] theorem Reg.toBits_ofBits : ∀ b : BitVec 3, (Reg.ofBits b).toBits = b := by decide

/-- The opcode field of a word put together from an opcode and the twelve bits below it. -/
theorem field_opcode (op : BitVec 4) (b : BitVec 12) : field (op ++ b) 12 4 = op :=
  BitVec.extractLsb'_append_eq_left

/-- A field below the opcode is a field of the twelve bits. -/
theorem field_below_opcode (op : BitVec 4) (b : BitVec 12) {lo n : Nat} (h : lo + n ≤ 12) :
    field (op ++ b) lo n = b.extractLsb' lo n :=
  BitVec.extractLsb'_append_eq_of_add_le h

/-- A bit below the opcode is a bit of the twelve. -/
theorem bit_below_opcode (op : BitVec 4) (b : BitVec 12) {k : Nat} (h : k < 12) :
    BitVec.getLsbD (op ++ b : Word) k = b.getLsbD k := by
  rw [BitVec.getLsbD_append, if_pos h]

/-- A one-bit field is its bit. -/
theorem field_one_bit (w : Word) (k : Nat) : field w k 1 = BitVec.ofBool (w.getLsbD k) := by
  apply BitVec.eq_of_getLsbD_eq
  intro i hi
  have hi0 : i = 0 := by omega
  subst hi0
  simp [field]

/-! ### The parts of each layout of R45, as fields of its twelve bits -/

theorem layout_3_9 (a : BitVec 3) (b : BitVec 9) :
    BitVec.extractLsb' 9 3 (a ++ b : BitVec 12) = a ∧
      BitVec.extractLsb' 0 9 (a ++ b : BitVec 12) = b := by
  refine ⟨?_, ?_⟩ <;>
    exact BitVec.eq_of_getLsbD_eq fun i hi => by
      simp only [BitVec.getLsbD_extractLsb', BitVec.getLsbD_append, hi, decide_true, Bool.true_and]
      repeat' split
      all_goals first | omega | (congr 1; omega)

theorem layout_3_3_6 (a : BitVec 3) (b : BitVec 3) (c : BitVec 6) :
    BitVec.extractLsb' 9 3 (a ++ b ++ c : BitVec 12) = a ∧
      BitVec.extractLsb' 6 3 (a ++ b ++ c : BitVec 12) = b ∧
      BitVec.extractLsb' 0 6 (a ++ b ++ c : BitVec 12) = c := by
  refine ⟨?_, ?_, ?_⟩ <;>
    exact BitVec.eq_of_getLsbD_eq fun i hi => by
      simp only [BitVec.getLsbD_extractLsb', BitVec.getLsbD_append, hi, decide_true, Bool.true_and]
      repeat' split
      all_goals first | omega | (congr 1; omega)

theorem layout_3_3_1_5 (a : BitVec 3) (b : BitVec 3) (c : BitVec 1) (d : BitVec 5) :
    BitVec.extractLsb' 9 3 (a ++ b ++ c ++ d : BitVec 12) = a ∧
      BitVec.extractLsb' 6 3 (a ++ b ++ c ++ d : BitVec 12) = b ∧
      BitVec.extractLsb' 5 1 (a ++ b ++ c ++ d : BitVec 12) = c ∧
      BitVec.extractLsb' 0 5 (a ++ b ++ c ++ d : BitVec 12) = d := by
  refine ⟨?_, ?_, ?_, ?_⟩ <;>
    exact BitVec.eq_of_getLsbD_eq fun i hi => by
      simp only [BitVec.getLsbD_extractLsb', BitVec.getLsbD_append, hi, decide_true, Bool.true_and]
      repeat' split
      all_goals first | omega | (congr 1; omega)

theorem layout_3_3_1_2_3 (a : BitVec 3) (b : BitVec 3) (c : BitVec 1) (d : BitVec 2) (e : BitVec 3) :
    BitVec.extractLsb' 9 3 (a ++ b ++ c ++ d ++ e : BitVec 12) = a ∧
      BitVec.extractLsb' 6 3 (a ++ b ++ c ++ d ++ e : BitVec 12) = b ∧
      BitVec.extractLsb' 5 1 (a ++ b ++ c ++ d ++ e : BitVec 12) = c ∧
      BitVec.extractLsb' 3 2 (a ++ b ++ c ++ d ++ e : BitVec 12) = d ∧
      BitVec.extractLsb' 0 3 (a ++ b ++ c ++ d ++ e : BitVec 12) = e := by
  refine ⟨?_, ?_, ?_, ?_, ?_⟩ <;>
    exact BitVec.eq_of_getLsbD_eq fun i hi => by
      simp only [BitVec.getLsbD_extractLsb', BitVec.getLsbD_append, hi, decide_true, Bool.true_and]
      repeat' split
      all_goals first | omega | (congr 1; omega)

theorem layout_1_11 (a : BitVec 1) (b : BitVec 11) :
    BitVec.extractLsb' 11 1 (a ++ b : BitVec 12) = a ∧
      BitVec.extractLsb' 0 11 (a ++ b : BitVec 12) = b := by
  refine ⟨?_, ?_⟩ <;>
    exact BitVec.eq_of_getLsbD_eq fun i hi => by
      simp only [BitVec.getLsbD_extractLsb', BitVec.getLsbD_append, hi, decide_true, Bool.true_and]
      repeat' split
      all_goals first | omega | (congr 1; omega)

theorem layout_1_2_3_6 (a : BitVec 1) (b : BitVec 2) (c : BitVec 3) (d : BitVec 6) :
    BitVec.extractLsb' 11 1 (a ++ b ++ c ++ d : BitVec 12) = a ∧
      BitVec.extractLsb' 9 2 (a ++ b ++ c ++ d : BitVec 12) = b ∧
      BitVec.extractLsb' 6 3 (a ++ b ++ c ++ d : BitVec 12) = c ∧
      BitVec.extractLsb' 0 6 (a ++ b ++ c ++ d : BitVec 12) = d := by
  refine ⟨?_, ?_, ?_, ?_⟩ <;>
    exact BitVec.eq_of_getLsbD_eq fun i hi => by
      simp only [BitVec.getLsbD_extractLsb', BitVec.getLsbD_append, hi, decide_true, Bool.true_and]
      repeat' split
      all_goals first | omega | (congr 1; omega)

theorem layout_4_8 (a : BitVec 4) (b : BitVec 8) :
    BitVec.extractLsb' 8 4 (a ++ b : BitVec 12) = a ∧
      BitVec.extractLsb' 0 8 (a ++ b : BitVec 12) = b := by
  refine ⟨?_, ?_⟩ <;>
    exact BitVec.eq_of_getLsbD_eq fun i hi => by
      simp only [BitVec.getLsbD_extractLsb', BitVec.getLsbD_append, hi, decide_true, Bool.true_and]
      repeat' split
      all_goals first | omega | (congr 1; omega)

theorem layout_1_1_1_9 (a : BitVec 1) (b : BitVec 1) (c : BitVec 1) (d : BitVec 9) :
    BitVec.extractLsb' 11 1 (a ++ b ++ c ++ d : BitVec 12) = a ∧
      BitVec.extractLsb' 10 1 (a ++ b ++ c ++ d : BitVec 12) = b ∧
      BitVec.extractLsb' 9 1 (a ++ b ++ c ++ d : BitVec 12) = c ∧
      BitVec.extractLsb' 0 9 (a ++ b ++ c ++ d : BitVec 12) = d := by
  refine ⟨?_, ?_, ?_, ?_⟩ <;>
    exact BitVec.eq_of_getLsbD_eq fun i hi => by
      simp only [BitVec.getLsbD_extractLsb', BitVec.getLsbD_append, hi, decide_true, Bool.true_and]
      repeat' split
      all_goals first | omega | (congr 1; omega)

end Sys2Proof
end

