-- ==== Sys2Proof/Laws/Memory.lean ====
section
/-! SUPPORT. The storage: a read after a write, the canonical form kept by every operation, and canonical
storages with equal words are equal. -/

namespace Sys2Proof.Machine

theorem Memory.wfFrom_cons {lo a : Nat} {v : Word} {rest : Memory} :
    Memory.wfFrom lo ((a, v) :: rest) = true ↔
      lo ≤ a ∧ a < 65536 ∧ v ≠ 0x0000#16 ∧ Memory.wfFrom (a + 1) rest = true := by
  simp [Memory.wfFrom, and_assoc]

theorem Memory.wfFrom_mono {lo lo' : Nat} (h : lo' ≤ lo) {m : Memory}
    (hm : Memory.wfFrom lo m = true) : Memory.wfFrom lo' m = true := by
  match m with
  | [] => rfl
  | (a, v) :: rest =>
    rw [Memory.wfFrom_cons] at hm ⊢
    exact ⟨h.trans hm.1, hm.2⟩

/-- In canonical form, an address below the lower bound is not listed. -/
theorem Memory.read_of_lt {m : Memory} {lo a : Nat} (hm : Memory.wfFrom lo m = true) (h : a < lo) :
    m.read a = 0x0000#16 := by
  induction m generalizing lo with
  | nil => rfl
  | cons p rest ih =>
    obtain ⟨b, w⟩ := p
    rw [Memory.wfFrom_cons] at hm
    have hne : a ≠ b := by omega
    simp only [Memory.read, if_neg hne]
    exact ih hm.2.2.2 (by omega)

theorem Memory.read_erase_same (m : Memory) (a : Nat) : (m.erase a).read a = 0x0000#16 := by
  induction m with
  | nil => rfl
  | cons p rest ih =>
    obtain ⟨b, w⟩ := p
    by_cases h : b = a
    · simpa [Memory.erase, h] using ih
    · have h' : a ≠ b := Ne.symm h
      simpa [Memory.erase, Memory.read, h, h'] using ih

theorem Memory.read_erase_ne (m : Memory) {a b : Nat} (h : b ≠ a) : (m.erase a).read b = m.read b := by
  induction m with
  | nil => rfl
  | cons p rest ih =>
    obtain ⟨c, w⟩ := p
    by_cases hc : c = a
    · have h' : b ≠ c := fun e => h (e.trans hc)
      simp only [Memory.read, if_neg h', ← ih]
      simp [Memory.erase, hc]
    · have he : Memory.erase ((c, w) :: rest) a = (c, w) :: Memory.erase rest a := by
        simp [Memory.erase, hc]
      simp only [he, Memory.read, ih]

theorem Memory.read_insert_ne (m : Memory) {a b : Nat} (h : b ≠ a) (v : Word) :
    (m.insert a v).read b = m.read b := by
  induction m with
  | nil => simp only [Memory.insert, Memory.read, if_neg h]
  | cons p rest ih =>
    obtain ⟨c, w⟩ := p
    by_cases hlt : a < c
    · simp only [Memory.insert, if_pos hlt, Memory.read, if_neg h]
    · simp only [Memory.insert, if_neg hlt, Memory.read, ih]

theorem Memory.read_insert_erase (m : Memory) (a : Nat) (v : Word) :
    ((m.erase a).insert a v).read a = v := by
  induction m with
  | nil => simp [Memory.erase, Memory.insert, Memory.read]
  | cons p rest ih =>
    obtain ⟨c, w⟩ := p
    by_cases hc : c = a
    · have he : Memory.erase ((c, w) :: rest) a = Memory.erase rest a := by simp [Memory.erase, hc]
      rw [he, ih]
    · have he : Memory.erase ((c, w) :: rest) a = (c, w) :: Memory.erase rest a := by
        simp [Memory.erase, hc]
      rw [he]
      by_cases hlt : a < c
      · simp only [Memory.insert, if_pos hlt, Memory.read, if_true]
      · simp only [Memory.insert, if_neg hlt, Memory.read, if_neg (Ne.symm hc), ih]

/-- A read after a write to the same address gives the word written, in every storage. -/
theorem Memory.read_write_same (m : Memory) (a : Nat) (v : Word) : (m.write a v).read a = v := by
  by_cases hv : v = 0x0000#16
  · subst hv
    exact Memory.read_erase_same m a
  · simp only [Memory.write, if_neg hv, Memory.read_insert_erase]

/-- A write leaves every other address alone, in every storage. -/
theorem Memory.read_write_ne (m : Memory) {a b : Nat} (h : b ≠ a) (v : Word) :
    (m.write a v).read b = m.read b := by
  by_cases hv : v = 0x0000#16
  · simp only [Memory.write, if_pos hv, Memory.read_erase_ne m h]
  · simp only [Memory.write, if_neg hv, Memory.read_insert_ne _ h, Memory.read_erase_ne m h]

theorem Memory.wfFrom_erase {m : Memory} {lo : Nat} (hm : Memory.wfFrom lo m = true) (a : Nat) :
    Memory.wfFrom lo (m.erase a) = true := by
  induction m generalizing lo with
  | nil => rfl
  | cons p rest ih =>
    obtain ⟨c, w⟩ := p
    have hc := Memory.wfFrom_cons.mp hm
    by_cases h : c = a
    · have he : Memory.erase ((c, w) :: rest) a = Memory.erase rest a := by simp [Memory.erase, h]
      rw [he]
      exact ih (Memory.wfFrom_mono (by omega) hc.2.2.2)
    · have he : Memory.erase ((c, w) :: rest) a = (c, w) :: Memory.erase rest a := by
        simp [Memory.erase, h]
      rw [he]
      exact Memory.wfFrom_cons.mpr ⟨hc.1, hc.2.1, hc.2.2.1, ih hc.2.2.2⟩

theorem Memory.wfFrom_insert_erase {m : Memory} {lo a : Nat} (hm : Memory.wfFrom lo m = true)
    (hlo : lo ≤ a) (ha : a < 65536) {v : Word} (hv : v ≠ 0x0000#16) :
    Memory.wfFrom lo ((m.erase a).insert a v) = true := by
  induction m generalizing lo with
  | nil => exact Memory.wfFrom_cons.mpr ⟨hlo, ha, hv, rfl⟩
  | cons p rest ih =>
    obtain ⟨c, w⟩ := p
    have hc := Memory.wfFrom_cons.mp hm
    by_cases h : c = a
    · have he : Memory.erase ((c, w) :: rest) a = Memory.erase rest a := by simp [Memory.erase, h]
      rw [he]
      exact ih (Memory.wfFrom_mono (by omega) hc.2.2.2) hlo
    · have he : Memory.erase ((c, w) :: rest) a = (c, w) :: Memory.erase rest a := by
        simp [Memory.erase, h]
      rw [he]
      by_cases hlt : a < c
      · simp only [Memory.insert, if_pos hlt]
        exact Memory.wfFrom_cons.mpr ⟨hlo, ha, hv, Memory.wfFrom_cons.mpr
          ⟨hlt, hc.2.1, hc.2.2.1, Memory.wfFrom_erase hc.2.2.2 a⟩⟩
      · simp only [Memory.insert, if_neg hlt]
        exact Memory.wfFrom_cons.mpr ⟨hc.1, hc.2.1, hc.2.2.1, ih hc.2.2.2 (by omega)⟩

theorem Memory.wfFrom_write {m : Memory} {lo a : Nat} (hm : Memory.wfFrom lo m = true)
    (hlo : lo ≤ a) (ha : a < 65536) (v : Word) : Memory.wfFrom lo (m.write a v) = true := by
  by_cases hv : v = 0x0000#16
  · simp only [Memory.write, if_pos hv, Memory.wfFrom_erase hm a]
  · simp only [Memory.write, if_neg hv, Memory.wfFrom_insert_erase hm hlo ha hv]

/-- A write keeps the canonical form. -/
theorem Memory.wf_write {m : Memory} (hm : m.wf = true) (a v : Word) :
    (m.write a.toNat v).wf = true :=
  Memory.wfFrom_write hm (Nat.zero_le _) a.isLt v

/-- Canonical storages that hold the same word at every address are equal. -/
theorem Memory.ext_of_wf {m m' : Memory} {lo : Nat} (hm : Memory.wfFrom lo m = true)
    (hm' : Memory.wfFrom lo m' = true) (h : ∀ a, m.read a = m'.read a) : m = m' := by
  induction m generalizing lo m' with
  | nil =>
    match m' with
    | [] => rfl
    | (b, w) :: rest =>
      have hb := h b
      simp only [Memory.read, if_true] at hb
      exact absurd hb.symm (Memory.wfFrom_cons.mp hm').2.2.1
  | cons p rest ih =>
    obtain ⟨a, v⟩ := p
    have hc := Memory.wfFrom_cons.mp hm
    match m' with
    | [] =>
      have ha := h a
      simp only [Memory.read, if_true] at ha
      exact absurd ha hc.2.2.1
    | (b, w) :: rest' =>
      have hc' := Memory.wfFrom_cons.mp hm'
      have hab : a = b := by
        by_contra hne
        rcases Nat.lt_or_gt_of_ne hne with hlt | hlt
        · have ha := h a
          simp only [Memory.read, if_true, if_neg hne] at ha
          rw [Memory.read_of_lt hc'.2.2.2 (by omega)] at ha
          exact hc.2.2.1 ha
        · have hb := h b
          simp only [Memory.read, if_true, if_neg (Ne.symm hne)] at hb
          rw [Memory.read_of_lt hc.2.2.2 (by omega)] at hb
          exact hc'.2.2.1 hb.symm
      subst hab
      have hvw : v = w := by
        have ha := h a
        simpa only [Memory.read, if_true] using ha
      subst hvw
      have hrest : rest = rest' := ih hc.2.2.2 hc'.2.2.2 fun c => by
        by_cases hca : c = a
        · subst hca
          rw [Memory.read_of_lt hc.2.2.2 (by omega), Memory.read_of_lt hc'.2.2.2 (by omega)]
        · simpa only [Memory.read, if_neg hca] using h c
      rw [hrest]

/-- A storage read sees only the storage. -/
theorem storeAt_congr {s t : State} (h : t.store = s.store) (a : Word) : storeAt a t = storeAt a s := by
  simp only [storeAt, h]

theorem storeAt_setStore_ne {a b : Word} (h : b ≠ a) (v : Word) (s : State) :
    storeAt b (setStore a v s) = storeAt b s :=
  Memory.read_write_ne s.store (fun e => h (BitVec.eq_of_toNat_eq e)) v

theorem storeAt_setStore_same (a v : Word) (s : State) : storeAt a (setStore a v s) = v :=
  Memory.read_write_same s.store a.toNat v

theorem setStore_wf {s : State} (hs : s.store.wf = true) (a v : Word) :
    (setStore a v s).store.wf = true :=
  Memory.wf_write hs a v

theorem reset_store_wf : State.reset.store.wf = true := rfl

end Sys2Proof.Machine
end

