-- ==== Sys2Proof/Laws/MemoryUnit.lean ====
section
/-! SUPPORT. The memory unit: what a read can do (R31, R32), and what it leaves. -/

namespace Sys2Proof.Machine

/-- The keyboard registers' addresses (R4, R38). -/
theorem kbsr_eq : kbsr = 0xFE00#16 := rfl

theorem kbdr_eq : kbdr = 0xFE02#16 := rfl

theorem memRead_of_ne {a : Word} (h : a ≠ kbsr) (s : State) : memRead a s = (storeAt a s, s) := by
  simp only [memRead, if_neg h]

theorem memRead_kbsr (s : State) :
    memRead kbsr s = (storeAt kbsr (pollKeyboard s), pollKeyboard s) := by
  simp only [memRead, if_true]

/-- Everything a poll can do. -/
theorem pollKeyboard_cases (s : State) :
    (∃ c rest, s.console.input = c :: rest ∧
      pollKeyboard s = setStore kbdr (zextChar c) (setStore kbsr 0x8000#16
        { s with console := { s.console with input := rest } })) ∨
    (s.console.input = [] ∧ pollKeyboard s = setStore kbsr 0x0000#16 s) := by
  cases hi : s.console.input with
  | cons c rest =>
    refine Or.inl ⟨c, rest, rfl, ?_⟩
    simp only [pollKeyboard, takeChar_cons hi]
  | nil =>
    refine Or.inr ⟨rfl, ?_⟩
    simp only [pollKeyboard, takeChar_nil hi]

/-- What a memory read leaves unchanged, in every state and at every address. -/
theorem memRead_frame (a : Word) (s : State) :
    (memRead a s).2.x = s.x ∧ (memRead a s).2.pc = s.pc ∧ (memRead a s).2.cond = s.cond ∧
      (memRead a s).2.running = s.running ∧ (memRead a s).2.console.closed = s.console.closed ∧
      (memRead a s).2.console.output = s.console.output := by
  by_cases h : a = kbsr
  · subst h
    rw [memRead_kbsr]
    rcases pollKeyboard_cases s with ⟨c, rest, -, hp⟩ | ⟨-, hp⟩ <;> simp [hp]
  · simp [memRead_of_ne h]

/-- A memory read changes no word but KBSR and KBDR. -/
theorem memRead_storeAt_ne (a : Word) (s : State) {b : Word} (hs : b ≠ kbsr) (hd : b ≠ kbdr) :
    storeAt b (memRead a s).2 = storeAt b s := by
  by_cases h : a = kbsr
  · subst h
    rw [memRead_kbsr]
    rcases pollKeyboard_cases s with ⟨c, rest, -, hp⟩ | ⟨-, hp⟩
    · simp only [hp, storeAt_setStore_ne hd, storeAt_setStore_ne hs]
      rfl
    · simp only [hp, storeAt_setStore_ne hs]
  · simp [memRead_of_ne h]

/-- A memory read keeps the storage canonical. -/
theorem memRead_wf (a : Word) {s : State} (hs : s.store.wf = true) :
    (memRead a s).2.store.wf = true := by
  by_cases h : a = kbsr
  · subst h
    rw [memRead_kbsr]
    rcases pollKeyboard_cases s with ⟨c, rest, -, hp⟩ | ⟨-, hp⟩
    · rw [hp]
      exact setStore_wf (setStore_wf (s := { s with console := { s.console with input := rest } })
        hs kbsr _) kbdr _
    · rw [hp]
      exact setStore_wf hs kbsr _
  · simpa [memRead_of_ne h] using hs

/-- A memory read consumes at most the oldest pending character. -/
theorem memRead_input_suffix (a : Word) (s : State) :
    (memRead a s).2.console.input <:+ s.console.input := by
  by_cases h : a = kbsr
  · subst h
    rw [memRead_kbsr]
    rcases pollKeyboard_cases s with ⟨c, rest, hi, hp⟩ | ⟨hi, hp⟩
    · simp [hp, hi]
    · simp [hp]
  · simp [memRead_of_ne h]

@[simp] theorem fetch_fst (s : State) : (fetch s).1 = (memRead s.pc s).1 := rfl

/-- The fetch leaves the incremented PC (R16). -/
theorem fetch_pc (s : State) : (fetch s).2.pc = s.pc + 1#16 := by
  simp only [fetch, setPc_pc, (memRead_frame s.pc s).2.1]

/-- Away from KBSR the fetch reads the word at `pc` and only advances `pc`. -/
theorem fetch_of_ne {s : State} (h : s.pc ≠ kbsr) : fetch s = (storeAt s.pc s, setPc (s.pc + 1#16) s) := by
  simp only [fetch, memRead_of_ne h]

end Sys2Proof.Machine
end

