-- ==== Sys2Proof/Laws/Trap.lean ====
section
/-! SUPPORT. The trap dispatcher: what a string loop and a service can do (R77, R79, R82). -/

namespace Sys2Proof.Machine

/-- `readString` is `Read(a)` of R77. -/
theorem readString_eq (poll : Bool) (a : Word) (s : State) :
    readString poll a s = if poll then memRead a s else (storeAt a s, s) := by
  by_cases h : a = kbsr <;> cases poll <;> simp [readString, h, memRead_of_ne]

/-- What one string read leaves, stated of the state after it. -/
theorem readString_frame (poll : Bool) (a : Word) (s : State) :
    (readString poll a s).2.x = s.x ∧ (readString poll a s).2.pc = s.pc ∧
      (readString poll a s).2.cond = s.cond ∧ (readString poll a s).2.running = s.running ∧
      (readString poll a s).2.console.closed = s.console.closed ∧
      (readString poll a s).2.console.output = s.console.output := by
  rw [readString_eq]
  cases poll
  · simp
  · simpa using memRead_frame a s

/-- Everything a string loop can change when it ends: the output grows, and polls may take characters and
write KBSR and KBDR. -/
theorem emitString_frame {chars : Word → List Byte} {poll : Bool} {fuel : Nat} {a : Word} {s t : State}
    (h : emitString chars poll fuel a s = some t) :
    t.x = s.x ∧ t.pc = s.pc ∧ t.cond = s.cond ∧ t.running = s.running ∧
      t.console.closed = s.console.closed ∧ s.console.output <+: t.console.output ∧
      t.console.input <:+ s.console.input ∧
      (∀ b, b ≠ kbsr → b ≠ kbdr → storeAt b t = storeAt b s) ∧
      (s.store.wf = true → t.store.wf = true) := by
  induction fuel generalizing a s with
  | zero => simp [emitString] at h
  | succ fuel ih =>
    have hf := readString_frame poll a s
    have hin : (readString poll a s).2.console.input <:+ s.console.input := by
      rw [readString_eq]
      cases poll
      · simp
      · simpa using memRead_input_suffix a s
    have hst : ∀ b, b ≠ kbsr → b ≠ kbdr → storeAt b (readString poll a s).2 = storeAt b s := by
      intro b hs hd
      rw [readString_eq]
      cases poll
      · simp
      · simpa using memRead_storeAt_ne a s hs hd
    have hwf : s.store.wf = true → (readString poll a s).2.store.wf = true := by
      intro hs
      rw [readString_eq]
      cases poll
      · simpa using hs
      · simpa using memRead_wf a hs
    simp only [emitString] at h
    split at h
    · obtain rfl := Option.some.inj h
      exact ⟨hf.1, hf.2.1, hf.2.2.1, hf.2.2.2.1, hf.2.2.2.2.1,
        by rw [hf.2.2.2.2.2], hin, hst, hwf⟩
    · have ht := ih h
      simp only [consoleWriteAll_x, consoleWriteAll_pc, consoleWriteAll_cond, consoleWriteAll_running,
        consoleWriteAll_store, consoleWriteAll_console] at ht
      obtain ⟨hx, hpc, hcond, hrun, hcl, hout, hi, hs, hw⟩ := ht
      refine ⟨hx.trans hf.1, hpc.trans hf.2.1, hcond.trans hf.2.2.1, hrun.trans hf.2.2.2.1,
        hcl.trans hf.2.2.2.2.1, ?_, hi.trans hin, ?_, fun h0 => hw (hwf h0)⟩
      · rw [← hf.2.2.2.2.2]
        exact (List.prefix_append _ _).trans hout
      · intro b h1 h2
        rw [hs b h1 h2, storeAt_congr (consoleWriteAll_store _ _), hst b h1 h2]

/-- Which code selects which service (R74). -/
theorem serviceOf_cases (vect : BitVec 8) :
    match serviceOf vect with
    | some .getc => vect = 0x20#8
    | some .out => vect = 0x21#8
    | some .puts => vect = 0x22#8
    | some .in => vect = 0x23#8
    | some .putsp => vect = 0x24#8
    | some .halt => vect = 0x25#8
    | none => vect ≠ 0x20#8 ∧ vect ≠ 0x21#8 ∧ vect ≠ 0x22#8 ∧ vect ≠ 0x23#8 ∧ vect ≠ 0x24#8 ∧
        vect ≠ 0x25#8 := by
  unfold serviceOf
  split_ifs <;> simp_all

/-- Only GETC and IN hold, and only when their read does (R106). -/
theorem runService_holds {p : Config.Params} {sv : Option Service} {s : State}
    (h : runService p sv s = .holds) :
    (sv = some .getc ∨ sv = some .in) ∧ consoleRead p.eofPolicy s = none := by
  rcases sv with _ | ⟨⟨⟩⟩ <;>
    simp only [runService, serviceGetc, serviceOut, servicePuts, serviceIn, servicePutsp, serviceHalt,
      serviceString] at h <;>
    (try split at h) <;> simp_all

/-- Only PUTS and PUTSP have no end (R110). -/
theorem runService_endless {p : Config.Params} {sv : Option Service} {s : State}
    (h : runService p sv s = .endless) : sv = some .puts ∨ sv = some .putsp := by
  rcases sv with _ | ⟨⟨⟩⟩ <;>
    simp only [runService, serviceGetc, serviceOut, servicePuts, serviceIn, servicePutsp, serviceHalt,
      serviceString] at h <;>
    (try split at h) <;> simp_all

/-- Everything a completed service leaves unchanged or can change (R82): R1 to R7, `pc`; the words of memory
but KBSR and KBDR; the output only grows and the input is only consumed. -/
theorem runService_frame {p : Config.Params} {sv : Option Service} {s t : State}
    (h : runService p sv s = .done t) :
    (∀ r, r ≠ .r0 → readReg r t = readReg r s) ∧ t.pc = s.pc ∧
      (sv ≠ some .halt → t.running = s.running) ∧
      t.console.closed = s.console.closed ∧ s.console.output <+: t.console.output ∧
      t.console.input <:+ s.console.input ∧
      (∀ b, b ≠ kbsr → b ≠ kbdr → storeAt b t = storeAt b s) ∧
      (s.store.wf = true → t.store.wf = true) := by
  have hstring : ∀ chars, serviceString chars p s = .done t →
      (∀ r, r ≠ .r0 → readReg r t = readReg r s) ∧ t.pc = s.pc ∧
      (sv ≠ some .halt → t.running = s.running) ∧
      t.console.closed = s.console.closed ∧ s.console.output <+: t.console.output ∧
      t.console.input <:+ s.console.input ∧
      (∀ b, b ≠ kbsr → b ≠ kbdr → storeAt b t = storeAt b s) ∧
      (s.store.wf = true → t.store.wf = true) := by
    intro chars h
    simp only [serviceString] at h
    split at h
    · next u hu =>
      cases h
      obtain ⟨hx, hpc, -, hrun, hcl, hout, hin, hst, hwf⟩ := emitString_frame hu
      exact ⟨fun r _ => readReg_congr hx r, hpc, fun _ => hrun, hcl, hout, hin, hst, hwf⟩
    · cases h
  rcases sv with _ | ⟨⟨⟩⟩
  · cases h
    exact ⟨fun _ _ => rfl, rfl, fun _ => rfl, rfl, List.prefix_refl _, List.suffix_refl _,
      fun _ _ _ => rfl, id⟩
  · simp only [runService, serviceGetc] at h
    split at h
    · cases h
    · next w u hr =>
      cases h
      rcases consoleRead_cases hr with ⟨c, rest, hi, -, rfl⟩ | ⟨-, -, -, rfl⟩
      · refine ⟨fun r hne => readReg_defineReg_ne hne _ _, rfl, fun _ => rfl, rfl,
          List.prefix_refl _, ?_, fun _ _ _ => rfl, id⟩
        simp [hi]
      · exact ⟨fun r hne => readReg_defineReg_ne hne _ _, rfl, fun _ => rfl, rfl,
          List.prefix_refl _, List.suffix_refl _, fun _ _ _ => rfl, id⟩
  · cases h
    exact ⟨fun _ _ => rfl, rfl, fun _ => rfl, rfl, List.prefix_append _ _, List.suffix_refl _,
      fun _ _ _ => rfl, id⟩
  · exact hstring _ h
  · simp only [runService, serviceIn] at h
    split at h
    · cases h
    · next w u hr =>
      cases h
      have hx : ∀ r, r ≠ .r0 → readReg r (defineReg .r0 w
          (consoleWrite (lowByte w) (consoleWriteAll p.inPrompt u))) = readReg r u := fun r hne =>
        (readReg_defineReg_ne hne _ _).trans (readReg_congr (consoleWriteAll_x _ _) r)
      rcases consoleRead_cases hr with ⟨c, rest, hi, -, rfl⟩ | ⟨-, -, -, rfl⟩
      · refine ⟨fun r hne => hx r hne, by simp, fun _ => by simp, by simp, by simp, by simp [hi],
          fun b _ _ => ?_, fun h0 => by simpa using h0⟩
        exact storeAt_congr (by simp) b
      · refine ⟨fun r hne => hx r hne, by simp, fun _ => by simp, by simp, by simp, by simp,
          fun b _ _ => ?_, fun h0 => by simpa using h0⟩
        exact storeAt_congr (by simp) b
  · exact hstring _ h
  · cases h
    refine ⟨fun r _ => readReg_congr (by simp) r, by simp, fun h0 => absurd rfl h0, by simp, by simp,
      by simp, fun b _ _ => storeAt_congr (by simp) b, fun h0 => by simpa using h0⟩

/-- Everything a TRAP can do under given parameters: its service completes, the step holds (GETC or IN, no
character pending), or a string has no end (PUTS or PUTSP). -/
theorem execTrapWith_cases (p : Config.Params) (vect : BitVec 8) (s : State) :
    (∃ t, runService p (serviceOf vect) (enterTrap s) = .done t ∧ execTrapWith p vect s = .next t) ∨
    ((vect = 0x20#8 ∨ vect = 0x23#8) ∧ consoleRead p.eofPolicy (enterTrap s) = none ∧
      execTrapWith p vect s = .next (holdStep s)) ∨
    ((vect = 0x22#8 ∨ vect = 0x24#8) ∧ execTrapWith p vect s = .fault .endlessString) := by
  have hsv := serviceOf_cases vect
  cases h : runService p (serviceOf vect) (enterTrap s) with
  | done t => exact Or.inl ⟨t, rfl, by simp only [execTrapWith, h]⟩
  | holds =>
    obtain ⟨hs, hr⟩ := runService_holds h
    refine Or.inr (Or.inl ⟨?_, hr, by simp only [execTrapWith, h]⟩)
    rcases hs with hs | hs <;> rw [hs] at hsv
    · exact Or.inl hsv
    · exact Or.inr hsv
  | endless =>
    refine Or.inr (Or.inr ⟨?_, by simp only [execTrapWith, h]⟩)
    rcases runService_endless h with hs | hs <;> rw [hs] at hsv
    · exact Or.inl hsv
    · exact Or.inr hsv

end Sys2Proof.Machine
end

