-- ==== Sys2Proof/Laws/Exec.lean ====
section
/-! SUPPORT. Said once: everything an instruction that answers a next state can have done, and everything a step
can have done. -/

namespace Sys2Proof.Machine

/-- The state after the memory reads an instruction makes before its effect: none, one or two. -/
inductive ReadsBefore (i : Instr) (s : State) : State → Prop where
  | none : ReadsBefore i s s
  | one (a : Word) : mayPoll i = true → ReadsBefore i s (memRead a s).2
  | two (a b : Word) : mayPoll i = true → ReadsBefore i s (memRead b (memRead a s).2).2

/-- What those reads leave. -/
theorem ReadsBefore.frame {i : Instr} {s u : State} (h : ReadsBefore i s u) :
    u.x = s.x ∧ u.pc = s.pc ∧ u.cond = s.cond ∧ u.running = s.running ∧
      u.console.closed = s.console.closed ∧ u.console.output = s.console.output ∧
      u.console.input <:+ s.console.input ∧
      (∀ b, storeAt b u ≠ storeAt b s → mayPoll i = true ∧ (b = kbsr ∨ b = kbdr)) ∧
      (s.store.wf = true → u.store.wf = true) := by
  cases h with
  | none => exact ⟨rfl, rfl, rfl, rfl, rfl, rfl, List.suffix_refl _, fun _ hb => absurd rfl hb, id⟩
  | one a hp =>
    obtain ⟨hx, hpc, hc, hr, hcl, ho⟩ := memRead_frame a s
    refine ⟨hx, hpc, hc, hr, hcl, ho, memRead_input_suffix a s, fun b hb => ⟨hp, ?_⟩,
      fun hs => memRead_wf a hs⟩
    by_contra hne
    rw [not_or] at hne
    exact hb (memRead_storeAt_ne a s hne.1 hne.2)
  | two a b hp =>
    obtain ⟨hx, hpc, hc, hr, hcl, ho⟩ := memRead_frame a s
    obtain ⟨hx', hpc', hc', hr', hcl', ho'⟩ := memRead_frame b (memRead a s).2
    refine ⟨hx'.trans hx, hpc'.trans hpc, hc'.trans hc, hr'.trans hr, hcl'.trans hcl, ho'.trans ho,
      (memRead_input_suffix b _).trans (memRead_input_suffix a s), fun d hd => ⟨hp, ?_⟩,
      fun hs => memRead_wf b (memRead_wf a hs)⟩
    by_contra hne
    rw [not_or] at hne
    exact hd ((memRead_storeAt_ne b _ hne.1 hne.2).trans (memRead_storeAt_ne a s hne.1 hne.2))

/-- Everything an instruction that answers a next state can have done. -/
inductive ExecShape (i : Instr) (s : State) : State → Prop where
  /-- It defined a register (R20). -/
  | defines (dr : Reg) (v : Word) (u : State) : flagReg i = some dr → writtenRegs i = [dr] →
      storedAddress i s = none → (∀ vect, i ≠ .trap vect) → ReadsBefore i s u →
      ExecShape i s (defineReg dr v u)
  /-- It stored a word (R34). -/
  | stores (a v : Word) (u : State) : flagReg i = none → writtenRegs i = [] →
      storedAddress i s = some a → (∀ vect, i ≠ .trap vect) → ReadsBefore i s u →
      ExecShape i s (memWrite a v u)
  /-- It set `pc`, or nothing (BR, JMP, RTI, RES). -/
  | jumps (v : Word) : flagReg i = none → writtenRegs i = [] → storedAddress i s = none →
      (∀ vect, i ≠ .trap vect) → ExecShape i s (setPc v s)
  /-- It saved the return address and set `pc` (JSR, JSRR). -/
  | links (v : Word) : flagReg i = none → writtenRegs i = [.r7] → storedAddress i s = none →
      (∀ vect, i ≠ .trap vect) → ExecShape i s (setPc v (writeReg .r7 s.pc s))
  /-- It was a TRAP whose service completed. -/
  | served (vect : BitVec 8) (t : State) : i = .trap vect →
      runService Config.params (serviceOf vect) (enterTrap s) = .done t → ExecShape i s t
  /-- It was a GETC or IN that holds. -/
  | held (vect : BitVec 8) : i = .trap vect → (vect = 0x20#8 ∨ vect = 0x23#8) →
      consoleRead Config.params.eofPolicy (enterTrap s) = none → ExecShape i s (holdStep s)

theorem exec_shape {i : Instr} {s t : State} (h : exec i s = .next t) : ExecShape i s t := by
  cases i with
  | br n z p offset =>
    simp only [exec, execBr, Host.Outcome.next.injEq] at h
    subst h
    split
    · exact .jumps _ rfl rfl rfl nofun
    · exact ExecShape.jumps (i := .br n z p offset) s.pc rfl rfl rfl nofun
  | addReg dr sr1 sr2 => cases h; exact .defines dr _ s rfl rfl rfl nofun .none
  | addImm dr sr1 imm => cases h; exact .defines dr _ s rfl rfl rfl nofun .none
  | ld dr offset => cases h; exact .defines dr _ _ rfl rfl rfl nofun (.one _ rfl)
  | st sr offset => cases h; exact .stores _ _ s rfl rfl rfl nofun .none
  | jsr offset => cases h; exact .links _ rfl rfl rfl nofun
  | jsrr base => cases h; exact .links _ rfl rfl rfl nofun
  | andReg dr sr1 sr2 => cases h; exact .defines dr _ s rfl rfl rfl nofun .none
  | andImm dr sr1 imm => cases h; exact .defines dr _ s rfl rfl rfl nofun .none
  | ldr dr base offset => cases h; exact .defines dr _ _ rfl rfl rfl nofun (.one _ rfl)
  | str sr base offset => cases h; exact .stores _ _ s rfl rfl rfl nofun .none
  | rti => cases h; exact ExecShape.jumps (i := .rti) s.pc rfl rfl rfl nofun
  | not dr sr => cases h; exact .defines dr _ s rfl rfl rfl nofun .none
  | ldi dr offset => cases h; exact .defines dr _ _ rfl rfl rfl nofun (.two _ _ rfl)
  | sti sr offset => cases h; exact .stores _ _ _ rfl rfl rfl nofun (.one _ rfl)
  | jmp base => cases h; exact .jumps _ rfl rfl rfl nofun
  | res => cases h; exact ExecShape.jumps (i := .res) s.pc rfl rfl rfl nofun
  | lea dr offset => cases h; exact .defines dr _ s rfl rfl rfl nofun .none
  | trap vect =>
    rcases execTrapWith_cases Config.params vect s with ⟨u, hu, he⟩ | ⟨hv, hr, he⟩ | ⟨-, he⟩
    · obtain rfl : u = t := Host.Outcome.next.inj (he.symm.trans h)
      exact .served vect u rfl hu
    · obtain rfl : holdStep s = t := Host.Outcome.next.inj (he.symm.trans h)
      exact .held vect rfl hv hr
    · exact absurd (he.symm.trans h) nofun

/-- Everything a step that answers a next state is: the core runs, and the decoded instruction answers it. -/
theorem step_next {s t : State} (h : step s = .next t) :
    s.running = true ∧ exec (decode (fetch s).1) (fetch s).2 = .next t := by
  unfold step at h
  split at h
  · next hr => exact ⟨hr, h⟩
  · cases h

theorem step_of_running {s : State} (h : s.running = true) :
    step s = exec (decode (fetch s).1) (fetch s).2 := by
  simp only [step, h, if_true]

/-- Every move of the system is a step of the core or one of the keyboard agent's two. -/
theorem systemStep_cases {e : Event} {s t : State} (h : systemStep e s = some t) :
    (e = .core ∧ step s = .next t) ∨
    (∃ c, e = .typed c ∧ s.console.closed = false ∧
      t = { s with console := { s.console with input := s.console.input ++ [c] } }) ∨
    (e = .closed ∧ t = closeInput s) := by
  cases e with
  | core =>
    simp only [systemStep] at h
    split at h
    · next u hu =>
      obtain rfl := Option.some.inj h
      exact Or.inl ⟨rfl, hu⟩
    · cases h
    · cases h
  | typed c =>
    simp only [systemStep, typeChar] at h
    split at h
    · cases h
    · next hc => exact Or.inr (Or.inl ⟨c, rfl, by simpa using hc, (Option.some.inj h).symm⟩)
  | closed => exact Or.inr (Or.inr ⟨rfl, (Option.some.inj h).symm⟩)

end Sys2Proof.Machine
end

