-- ==== Sys2Proof/Laws/PerInstr.lean ====
section
/-! SUPPORT. The statements made per instruction: the family OpcodeField. -/

namespace Sys2Proof.Laws.OpcodeField

/-- The word the encoder writes for an instruction has the instruction's opcode number in its top four bits
(R42, R43). -/
def Statement (i : Instr) : Prop := field (encode i) 12 4 = i.opcode

theorem br (n z p : Bool) (offset : BitVec 9) : Statement (.br n z p offset) := field_opcode _ _
theorem addReg (dr sr1 sr2 : Reg) : Statement (.addReg dr sr1 sr2) := field_opcode _ _
theorem addImm (dr sr1 : Reg) (imm : BitVec 5) : Statement (.addImm dr sr1 imm) := field_opcode _ _
theorem ld (dr : Reg) (offset : BitVec 9) : Statement (.ld dr offset) := field_opcode _ _
theorem st (sr : Reg) (offset : BitVec 9) : Statement (.st sr offset) := field_opcode _ _
theorem jsr (offset : BitVec 11) : Statement (.jsr offset) := field_opcode _ _
theorem jsrr (base : Reg) : Statement (.jsrr base) := field_opcode _ _
theorem andReg (dr sr1 sr2 : Reg) : Statement (.andReg dr sr1 sr2) := field_opcode _ _
theorem andImm (dr sr1 : Reg) (imm : BitVec 5) : Statement (.andImm dr sr1 imm) := field_opcode _ _
theorem ldr (dr base : Reg) (offset : BitVec 6) : Statement (.ldr dr base offset) := field_opcode _ _
theorem str (sr base : Reg) (offset : BitVec 6) : Statement (.str sr base offset) := field_opcode _ _
theorem rti : Statement .rti := field_opcode _ _
theorem not (dr sr : Reg) : Statement (.not dr sr) := field_opcode _ _
theorem ldi (dr : Reg) (offset : BitVec 9) : Statement (.ldi dr offset) := field_opcode _ _
theorem sti (sr : Reg) (offset : BitVec 9) : Statement (.sti sr offset) := field_opcode _ _
theorem jmp (base : Reg) : Statement (.jmp base) := field_opcode _ _
theorem res : Statement .res := field_opcode _ _
theorem lea (dr : Reg) (offset : BitVec 9) : Statement (.lea dr offset) := field_opcode _ _
theorem trap (vect : BitVec 8) : Statement (.trap vect) := field_opcode _ _

end Sys2Proof.Laws.OpcodeField
end

