-- ==== Sys2Proof/Laws/Strings.lean ====
section
/-! SUPPORT. The small lemmas of the string terms of Safety: `nonzeroWords`, `meetsKbsr`, `ReadsString`. -/

namespace Sys2Proof.Machine

theorem nonzeroWords_congr {s t : State} (h : s.store = t.store) (n : Nat) (a : Word) :
    nonzeroWords s n a = nonzeroWords t n a := by
  induction n generalizing a with
  | zero => rfl
  | succ n ih => simp only [nonzeroWords, ih, storeAt_congr h]

/-- Whether a string comes to 0xFE00 depends on the storage alone. -/
theorem meetsKbsr_congr {s t : State} (h : s.store = t.store) (a : Word) :
    meetsKbsr a s = meetsKbsr a t :=
  nonzeroWords_congr h _ _

/-- A string that starts at 0xFE00 has come there. -/
theorem ne_kbsr_of_meetsKbsr {a : Word} {s : State} (h : meetsKbsr a s = false) : a ≠ kbsr := by
  rintro rfl
  simp [meetsKbsr, kbsr, nonzeroWords] at h

/-- One word nearer to 0xFE00. -/
theorem kbsr_distance_succ {a : Word} (h : a ≠ 0xFE00#16) :
    (0xFE00#16 - a).toNat = (0xFE00#16 - (a + 1#16)).toNat + 1 := by
  bv_omega

/-- A string that never comes to 0xFE00 and does not end at its first word never does from the second. -/
theorem meetsKbsr_next {a : Word} {s : State} (h : meetsKbsr a s = false) (h0 : storeAt a s ≠ 0x0000#16) :
    meetsKbsr (a + 1#16) s = false := by
  unfold meetsKbsr at h ⊢
  rw [kbsr_distance_succ (ne_kbsr_of_meetsKbsr h)] at h
  simpa [nonzeroWords, h0] using h

theorem ReadsString_nil (a : Word) (s t : State) :
    ReadsString a [] s t ↔ ReadsWord a 0x0000#16 s t := Iff.rfl

theorem ReadsString_cons (a w : Word) (ws : List Word) (s t : State) :
    ReadsString a (w :: ws) s t ↔
      w ≠ 0x0000#16 ∧ ∃ u, ReadsWord a w s u ∧ ReadsString (a + 1#16) ws u t := Iff.rfl

end Sys2Proof.Machine
end

