-- ==== Sys2Proof/Tests/Slice0.lean ====
section
/-! SUPPORT. The model's own tests: the checks of WellFormed, every form's word written out bit by bit, one step
per vector of 95_test_vectors.md, and a witness for every statement with hypotheses. -/

namespace Sys2Proof.Tests

open Sys2Proof.Machine

/-! ### Helpers -/

/-- The state an outcome answers, if it answers one. -/
def nextOf (o : Host.Outcome State Fault Refusal) : Option State :=
  match o with
  | .next t => some t
  | .fault _ => none
  | .refused _ => none

/-- The reset state with a word at 0x3000. -/
def withWord (w : Word) : State := setStore 0x3000 w State.reset

/-- The state with characters pending. -/
def typed (cs : List Byte) (s : State) : State := { s with console := { s.console with input := cs } }

/-- Parameters for tests that need definite ones. -/
def params (poll : Bool) (eof : Config.EofPolicy) : Config.Params :=
  { haltNotice := [0x21], inPrompt := [0x3F], trapReadsPoll := poll, eofPolicy := eof }

/-! ### WellFormed: a word or file each check refuses -/

theorem test_canonical_refuses_add_bits : canonicalWord 0x105A = false := by decide
theorem test_canonical_refuses_not_zeros : canonicalWord 0x9000 = false := by decide
theorem test_canonical_refuses_jmp_bits : canonicalWord 0xCE3F = false := by decide
theorem test_canonical_refuses_jsrr_bits : canonicalWord 0x4600 = false := by decide
theorem test_canonical_refuses_trap_bits : canonicalWord 0xFF21 = false := by decide
theorem test_canonical_refuses_reserved_bits :
    canonicalWord 0x8001 = false ∧ canonicalWord 0xD123 = false := by decide
theorem test_canonical_accepts : canonicalWord 0x903F = true ∧ canonicalWord 0xC1C0 = true := by decide
theorem test_image_refuses_short_file : imageWellFormed [0x30] = false := by decide

/-! ### Decode: one word per form, written out from R45 -/

theorem test_decode_br : decode 0b0000_101_100000000 = .br true false true 0x100 := by decide
theorem test_decode_addReg : decode 0b0001_011_101_0_00_110 = .addReg .r3 .r5 .r6 := by decide
theorem test_decode_addImm : decode 0b0001_011_101_1_10001 = .addImm .r3 .r5 0b10001 := by decide
theorem test_decode_ld : decode 0b0010_110_100000001 = .ld .r6 0x101 := by decide
theorem test_decode_st : decode 0b0011_110_100000001 = .st .r6 0x101 := by decide
theorem test_decode_jsr : decode 0b0100_1_10000000001 = .jsr 0x401 := by decide
theorem test_decode_jsrr : decode 0b0100_0_00_101_000000 = .jsrr .r5 := by decide
theorem test_decode_andReg : decode 0b0101_011_101_0_00_110 = .andReg .r3 .r5 .r6 := by decide
theorem test_decode_andImm : decode 0b0101_011_101_1_10001 = .andImm .r3 .r5 0b10001 := by decide
theorem test_decode_ldr : decode 0b0110_001_110_100001 = .ldr .r1 .r6 0b100001 := by decide
theorem test_decode_str : decode 0b0111_001_110_100001 = .str .r1 .r6 0b100001 := by decide
theorem test_decode_rti : decode 0b1000_000000000000 = .rti := by decide
theorem test_decode_not : decode 0b1001_100_011_111111 = .not .r4 .r3 := by decide
theorem test_decode_ldi : decode 0b1010_110_100000001 = .ldi .r6 0x101 := by decide
theorem test_decode_sti : decode 0b1011_110_100000001 = .sti .r6 0x101 := by decide
theorem test_decode_jmp : decode 0b1100_000_110_000000 = .jmp .r6 := by decide
theorem test_decode_res : decode 0b1101_000000000000 = .res := by decide
theorem test_decode_lea : decode 0b1110_110_100000001 = .lea .r6 0x101 := by decide
theorem test_decode_trap : decode 0b1111_0000_10000001 = .trap 0x81 := by decide
theorem test_decode_table_word :
    decodeTableWord 16 0x1042 = some (.addReg .r0 .r1 .r2) ∧ decodeTableWord 32 0 = none := by decide

/-! ### One step per vector -/

/-- V-OP-1. -/
theorem test_addReg_wraps : (nextOf (step (writeReg .r1 0x7FFF (writeReg .r2 1 (withWord 0x1042))))).map
    (fun t => (readReg .r0 t, t.cond, t.pc)) = some (0x8000, .n, 0x3001) := by decide
/-- V-OP-5. -/
theorem test_addReg_reads_before_write : (nextOf (step (writeReg .r1 0x4000 (withWord 0x1241)))).map
    (fun t => (readReg .r1 t, t.cond)) = some (0x8000, .n) := by decide
/-- V-OP-3. -/
theorem test_addImm_most_negative : (nextOf (step (writeReg .r1 0x0010 (withWord 0x1070)))).map
    (fun t => (readReg .r0 t, t.cond)) = some (0, .z) := by decide
/-- V-MEM-3. -/
theorem test_addImm_pc_wraps : (nextOf (step (setPc 0xFFFF (setStore 0xFFFF 0x1261 State.reset)))).map
    (fun t => (readReg .r1 t, t.cond, t.pc)) = some (1, .p, 0) := by decide
/-- V-OP-7. -/
theorem test_andReg : (nextOf (step (writeReg .r1 0x00FF (writeReg .r2 0x0F0F (withWord 0x5642))))).map
    (fun t => (readReg .r3 t, t.cond)) = some (0x000F, .p) := by decide
/-- V-OP-10. -/
theorem test_andImm_extends : (nextOf (step (writeReg .r1 0xFFFF (withWord 0x5070)))).map
    (fun t => (readReg .r0 t, t.cond)) = some (0xFFF0, .n) := by decide
/-- V-OP-11. -/
theorem test_not : (nextOf (step (writeReg .r3 0x00FF (withWord 0x94FF)))).map
    (fun t => (readReg .r2 t, t.cond)) = some (0xFF00, .n) := by decide
/-- V-OP-13. -/
theorem test_not_ignores_low_bits : (nextOf (step (writeReg .r1 0x8000 (withWord 0x9040)))).map
    (fun t => (readReg .r0 t, t.cond)) = some (0x7FFF, .p) := by decide
/-- V-CTL-2. -/
theorem test_br_not_taken : (nextOf (step (setCond .p (withWord 0x0402)))).map (fun t => t.pc) =
    some 0x3001 := by decide
/-- V-CTL-6. -/
theorem test_br_wraps :
    (nextOf (step (setCond .p (setPc 0xFFFF (setStore 0xFFFF 0x02FF State.reset))))).map
      (fun t => t.pc) = some 0x00FF := by decide
/-- V-CTL-13. -/
theorem test_jmp_ignores_bits : (nextOf (step (writeReg .r0 0x1234 (withWord 0xCE3F)))).map
    (fun t => t.pc) = some 0x1234 := by decide
/-- V-CTL-11. -/
theorem test_jsr_most_negative : (nextOf (step (withWord 0x4C00))).map
    (fun t => (readReg .r7 t, t.pc, t.cond)) = some (0x3001, 0x2C01, .z) := by decide
/-- V-CTL-9. -/
theorem test_jsrr_r7_falls_through : (nextOf (step (writeReg .r7 0x5000 (withWord 0x41C0)))).map
    (fun t => (readReg .r7 t, t.pc)) = some (0x3001, 0x3001) := by decide
/-- V-CTL-12. -/
theorem test_jsrr : (nextOf (step (writeReg .r3 0x4000 (withWord 0x40C0)))).map
    (fun t => (readReg .r7 t, t.pc)) = some (0x3001, 0x4000) := by decide
/-- V-LS-1. -/
theorem test_ld : (nextOf (step (setStore 0x3006 0x8001 (withWord 0x2205)))).map
    (fun t => (readReg .r1 t, t.cond)) = some (0x8001, .n) := by decide
/-- V-SRC-4, the LDI at 0x2FFF (C2). -/
theorem test_ldi_double_indirection :
    (nextOf (step (setPc 0x2FFF (setStore 0x2FFF 0xA002 (setStore 0x3002 0x4000
      (setStore 0x4000 0x1234 State.reset)))))).map
        (fun t => (readReg .r0 t, t.cond, t.pc)) = some (0x1234, .p, 0x3000) := by decide
/-- V-SRC-7b. -/
theorem test_ldi_polls :
    (nextOf (step (typed [0x78] (setStore 0x3005 0xFE00 (withWord 0xA204))))).map
      (fun t => (readReg .r1 t, t.cond, storeAt 0xFE00 t, storeAt 0xFE02 t, t.console.input)) =
        some (0x8000, .n, 0x8000, 0x0078, []) := by decide
/-- V-LS-4. -/
theorem test_ldr_wraps : (nextOf (step (writeReg .r1 0xFFFF (setStore 0 0x00AA (withWord 0x6241))))).map
    (fun t => (readReg .r1 t, t.cond)) = some (0x00AA, .p) := by decide
/-- V-LS-6. -/
theorem test_lea_sets_n : (nextOf (step (setPc 0x8000 (setStore 0x8000 0xE000 State.reset)))).map
    (fun t => (readReg .r0 t, t.cond, t.pc)) = some (0x8001, .n, 0x8001) := by decide
/-- V-LS-7. -/
theorem test_st_own_word :
    (nextOf (step (setCond .p (writeReg .r1 0xBEEF (withWord 0x33FF))))).map
      (fun t => (storeAt 0x3000 t, t.cond)) = some (0xBEEF, .p) := by decide
/-- V-LS-8. -/
theorem test_sti : (nextOf (step (writeReg .r2 0x0041 (setStore 0x3002 0x5000 (withWord 0xB401))))).map
    (fun t => (storeAt 0x5000 t, storeAt 0x3002 t)) = some (0x0041, 0x5000) := by decide
/-- V-LS-10. -/
theorem test_str_wraps : (nextOf (step (writeReg .r1 0x0010 (withWord 0x7260)))).map
    (fun t => (storeAt 0xFFF0 t, readReg .r1 t)) = some (0x0010, 0x0010) := by decide
/-- V-RS-1. -/
theorem test_rti : nextOf (step (withWord 0x8000)) = some (setPc 0x3001 (withWord 0x8000)) := by decide
/-- V-RS-2. -/
theorem test_res : nextOf (step (withWord 0xD123)) = some (setPc 0x3001 (withWord 0xD123)) := by decide
/-- V-MEM-1. -/
theorem test_fetch_at_kbsr_polls :
    (nextOf (step (typed [0x71] (setPc 0xFE00 State.reset)))).map
      (fun t => (storeAt 0xFE00 t, storeAt 0xFE02 t, t.console.input, t.pc)) =
        some (0x8000, 0x0071, [], 0xFE01) := by decide
/-- V-TR-1. -/
theorem test_getc : (nextOf (step (typed [0x48] (withWord 0xF020)))).map
    (fun t => (readReg .r0 t, t.cond, readReg .r7 t, t.console)) =
      some (0x0048, .p, 0x3001, { input := [], closed := false, output := [] }) := by decide
/-- V-TR-4. -/
theorem test_getc_end_of_input :
    (nextOf (execTrapWith (params false (.value 0xFFFF)) 0x20
      (setPc 0x3001 (closeInput State.reset)))).map
        (fun t => (readReg .r0 t, t.cond, readReg .r7 t)) = some (0xFFFF, .n, 0x3001) := by decide
/-- V-TR-17: bits 11 to 8 are ignored. -/
theorem test_out : (nextOf (step (writeReg .r0 0x0041 (withWord 0xFF21)))).map
    (fun t => (t.console.output, readReg .r7 t)) = some ([0x41], 0x3001) := by decide
/-- V-TR-9. -/
theorem test_puts_wraps : (nextOf (step (writeReg .r0 0xFFFF (setStore 0xFFFF 0x0041
    (setStore 0 0x0042 (withWord 0xF022)))))).map
      (fun t => (t.console.output, readReg .r7 t)) = some ([0x41, 0x42], 0x3001) := by
  decide +kernel
/-- V-TR-10. -/
theorem test_in : (nextOf (execTrapWith (params false .hold) 0x23 (typed [0x37] State.reset))).map
    (fun t => (readReg .r0 t, t.cond, t.console.output)) =
      some (0x0037, .p, [0x3F, 0x37]) := by decide
/-- V-TR-13. -/
theorem test_putsp_low_byte_zero : (nextOf (step (writeReg .r0 0x4000 (setStore 0x4000 0x4100
    (withWord 0xF024))))).map (fun t => t.console.output) = some [0x00, 0x41] := by
  decide +kernel
/-- V-TR-18a and V-TR-18b. -/
theorem test_puts_through_kbsr :
    let s := writeReg .r0 0xFDFF (setStore 0xFDFF 0x0041 (setStore 0xFE00 0x0043
      (setStore 0xFE01 0x0044 State.reset)))
    (nextOf (execTrapWith (params false .hold) 0x22 s)).map
      (fun t => (t.console.output, storeAt 0xFE00 t)) = some ([0x41, 0x43, 0x44], 0x0043) ∧
    (nextOf (execTrapWith (params true .hold) 0x22 s)).map
      (fun t => (t.console.output, storeAt 0xFE00 t)) = some ([0x41], 0x0000) := by
  decide +kernel
/-- R32 and R79 by hand: the polled word 0x8000 writes 0x00, and for PUTSP 0x80 after it. -/
theorem test_polled_string_takes_character :
    let s := typed [0x78] (writeReg .r0 0xFDFF (setStore 0xFDFF 0x0041 State.reset))
    (nextOf (execTrapWith (params true .hold) 0x22 s)).map
      (fun t => (t.console.output, storeAt 0xFE02 t, t.console.input)) =
        some ([0x41, 0x00], 0x0078, []) ∧
    (nextOf (execTrapWith (params true .hold) 0x24 s)).map
      (fun t => (t.console.output, storeAt 0xFE00 t)) = some ([0x41, 0x00, 0x80], 0x8000) := by
  decide +kernel
/-- V-TR-14. -/
theorem test_halt :
    (nextOf (step (setPc 0x3002 (setStore 0x3002 0xF025 State.reset)))).map
      (fun t => (t.running, readReg .r7 t, t.pc)) = some (false, 0x3003, 0x3003) := by decide
/-- V-TR-15. -/
theorem test_unknown_trap : nextOf (step (withWord 0xF026)) =
    some (writeReg .r7 0x3001 (setPc 0x3001 (withWord 0xF026))) := by decide

/-! ### The loader: V-LD-1 to V-LD-4 -/

theorem test_load_truncates :
    loadImage [0xFF, 0xFE, 0x00, 0x01, 0x00, 0x02, 0x00, 0x03] [] = some [(0xFFFE, 1), (0xFFFF, 2)] := by
  decide
theorem test_load_odd_byte : loadImage [0x30, 0x00, 0x00, 0x01, 0x7F] [] = some [(0x3000, 1)] := by decide
theorem test_load_overlap :
    loadImages [some [0x30, 0x00, 0x11, 0x11, 0x22, 0x22], some [0x30, 0x01, 0x33, 0x33]] [] =
      some [(0x3000, 0x1111), (0x3001, 0x3333)] := by decide
theorem test_load_failure : boot [some [0x30]] = .loadFailure := by decide

/-! ### Witnesses: for each statement with hypotheses, a state and operands that meet them all -/

theorem witness_ignoredBitsDoNotMatter :
    (0x9000#16 &&& ~~~ ignoredBits 0x9000) = (0x903F &&& ~~~ ignoredBits 0x9000) := by decide

/-- Both ends of each range of R50. -/
theorem witness_noOpWordsChangeNothing :
    (0x8000 ≤ (0x8000#16).toNat ∧ (0x8FFF#16).toNat ≤ 0x8FFF) ∧
    (0xD000 ≤ (0xD000#16).toNat ∧ (0xDFFF#16).toNat ≤ 0xDFFF) ∧ (0x01FF#16).toNat ≤ 0x01FF := by decide

/-- The most negative field of three widths, and the greatest of the fourth. -/
theorem witness_signExtensionKeepsSignedValue :
    1 ≤ 5 ∧ 11 ≤ 16 ∧ (sext 0b10000#5).toInt = -16 ∧ (sext 0b100000#6).toInt = -32 ∧
    (sext 0x100#9).toInt = -256 ∧ (sext 0x3FF#11).toInt = 1023 := by decide

theorem witness_stepRunsDecodedInstruction :
    State.reset.running = true ∧ State.reset.pc ≠ 0xFE00 := by decide

theorem witness_haltedCoreHasNoStep : Final (stopRunning State.reset) := rfl

theorem witness_placedWordIsRun : State.reset.running = true ∧ State.reset.pc ≠ 0xFE00 ∧
    (State.reset.withFetchWord 16 (0x1042#16).toNat).store = [(0x3000, 0x1042)] := by decide

/-- A character pending, and none. -/
theorem witness_fetchAtKbsrIsNoOp :
    (typed [0x71] (setPc 0xFE00 State.reset)).running = true ∧
    (typed [0x71] (setPc 0xFE00 State.reset)).pc = 0xFE00 ∧
    (setPc 0xFE00 State.reset).console.input = [] := by decide

theorem witness_storeToKbsrIsNeverObserved : MachineInv (withWord 0x1042) := by unfold MachineInv; decide

theorem witness_storeIsSeenByNextFetch :
    0x3000#16 ≠ 0xFE00 ∧ State.reset.running = true ∧ State.reset.pc = 0x3000 := by decide

theorem witness_getcReadsCharacter :
    (typed [0x48, 0x49] State.reset).console.input = 0x48 :: [0x49] := rfl

theorem witness_inPromptsEchoesAndStores :
    (typed [0x00] State.reset).console.input = 0x00 :: [] := rfl

/-- Both policies. -/
theorem witness_endOfInputFollowsPolicy :
    (closeInput State.reset).console.input = [] ∧ (closeInput State.reset).console.closed = true ∧
    (params false .hold).eofPolicy = .hold ∧
    (params false (.value 0xFFFF)).eofPolicy = .value 0xFFFF := by decide

/-- The string HI at 0x4000, one character a word, and the empty string. -/
theorem witness_putsWritesString :
    let s := writeReg .r0 0x4000 (setStore 0x4000 0x0048 (setStore 0x4001 0x0049 State.reset))
    stringAt s (readReg .r0 s) [0x0048, 0x0049] = true ∧ avoidsKbsr (readReg .r0 s) 2 = true ∧
    stringAt s 0x5000 [] = true := by decide

/-- The string HI packed in one word. -/
theorem witness_putspWritesPackedString :
    let s := writeReg .r0 0x4000 (setStore 0x4000 0x4948 State.reset)
    stringAt s (readReg .r0 s) [0x4948] = true ∧ avoidsKbsr (readReg .r0 s) 1 = true ∧
    packedChars [0x4948, 0x0041, 0x4100] = [0x48, 0x49, 0x41, 0x00, 0x41] := by decide

/-- V-TR-18a's string, which passes 0xFE00. -/
theorem witness_directStringReadsDoNotPoll :
    let s := writeReg .r0 0xFDFF (setStore 0xFDFF 0x0041 (setStore 0xFE00 0x0043
      (setStore 0xFE01 0x0044 State.reset)))
    (params false .hold).trapReadsPoll = false ∧
    stringAt s (readReg .r0 s) [0x0041, 0x0043, 0x0044] = true := by decide

/-- V-TR-18b's string with nothing pending, then with a character pending, which takes it past 0xFE00 to the
character's own word and beyond. -/
theorem witness_polledStringEndsAtKbsr :
    let s := writeReg .r0 0xFDFF (setStore 0xFDFF 0x0041 (setStore 0xFE00 0x0043 State.reset))
    let r := typed [0x78] (setStore 0xFE01 0x0044 s)
    (params true .hold).trapReadsPoll = true ∧ s.console.input = [] ∧
    wordsAt s (readReg .r0 s) [0x0041] = true ∧ wordsAt r (readReg .r0 r) [0x0041] = true ∧
    readReg .r0 s + BitVec.ofNat 16 [(0x0041 : Word)].length = 0xFE00 ∧
    [(0x0041 : Word)].length < 65536 ∧ r.console.input = 0x78 :: [] ∧
    stringAt (memRead 0xFE00 r).2 0xFE01 [0x0044, 0x0078] = true ∧ avoidsKbsr 0xFE01 2 = true := by decide

/-- A string that starts at 0xFE00 with nothing pending, and one that comes to it after one word. -/
theorem witness_polledStringEndsAtKbsr_chain :
    let s := writeReg .r0 0xFDFF (setStore 0xFDFF 0x0041 State.reset)
    ReadsString 0xFE00 [] State.reset State.reset ∧ ReadsString (readReg .r0 s) [0x0041] s s :=
  ⟨⟨rfl, rfl, rfl, rfl, rfl, rfl, rfl, rfl, rfl, fun _ _ => rfl⟩,
    by decide, _, ⟨rfl, rfl, rfl, rfl, rfl, rfl, rfl, rfl, rfl⟩,
    rfl, rfl, rfl, rfl, rfl, rfl, rfl, rfl, rfl, fun _ _ => rfl⟩

/-- The codes at the edges of the six services. -/
theorem witness_unknownTrapWritesOnlyR7 :
    (0x1F#8).toNat < 0x20 ∧ 0x25 < (0x26#8).toNat ∧ 0x25 < (0xFF#8).toNat := by decide

/-- A TRAP that completes, and a GETC that holds. -/
theorem witness_everyTrapSavesReturnAddress :
    exec (.trap 0x00) State.reset = .next (enterTrap State.reset) ∧
    exec (.trap 0x20) State.reset = .next (holdStep State.reset) := ⟨rfl, rfl⟩

theorem witness_stringBoundIsExact :
    emitString putsChars false 1 0x4000 State.reset = some State.reset := by decide

/-- A GETC and an IN that wait. -/
theorem witness_waitingStepChangesNothing : Waits (withWord 0xF020) ∧ Waits (withWord 0xF023) :=
  ⟨⟨rfl, by decide, Or.inl (by decide), rfl, rfl⟩, ⟨rfl, by decide, Or.inr (by decide), rfl, rfl⟩⟩

theorem witness_characterLiftsTheHold : Waits (withWord 0xF020) :=
  witness_waitingStepChangesNothing.1

/-- A payload that reaches 0xFFFF, and a trailing odd byte. -/
theorem witness_imageWordsLieInSequence :
    Memory.wf [] = true ∧ [(0x7F : Byte)].length ≤ 1 ∧
    loadImage ([0xFF, 0xFF, 0x12, 0x34] ++ [0x7F]) [] = some [(0xFFFF, 0x1234)] := by decide

theorem witness_bootStartsOrFails :
    boot [some [0x30, 0x00, 0xF0, 0x25]] =
      .started { State.reset with store := [(0x3000, 0xF025)] } ∧
    boot [some [0x30, 0x00], none] = .loadFailure ∧
    (∀ f ∈ [some [(0xFF : Byte), 0xFF]], ∃ b, f = some b ∧ 2 ≤ b.length) ∧
    Boot.exitCode .noPaths = some Config.noPathsCode := 
  ⟨by decide, by decide, by simp, rfl⟩

theorem witness_stepKeepsInvariant : (withWord 0x8000).store.wf = true ∧
    step (withWord 0x8000) = .next (setPc 0x3001 (withWord 0x8000)) := ⟨by decide, rfl⟩

theorem witness_everyScheduleKeepsInvariant :
    boot [some [0x30, 0x00, 0xF0, 0x20]] =
      .started { State.reset with store := [(0x3000, 0xF020)] } ∧
    (runSchedule [.core, .typed 0x41, .closed, .core]
      { State.reset with store := [(0x3000, 0xF020)] }).isSome = true := by decide

/-- A HALT step, and the keyboard agent's step from the halted state. -/
theorem witness_onlyHaltClearsRunning :
    (systemStep .core (withWord 0xF025)).map (fun t => t.running) = some false ∧
    (withWord 0xF025).running = true ∧
    systemStep .closed (stopRunning State.reset) = some (closeInput (stopRunning State.reset)) ∧
    (stopRunning State.reset).running = false := by decide

/-- A flag-defining instruction, one that is not, and a GETC that holds. -/
theorem witness_flagsChangeOnlyByDefiningInstructions :
    exec (.lea .r0 3) State.reset = .next (defineReg .r0 0x3003 State.reset) ∧
    exec .rti State.reset = .next State.reset ∧
    exec (.trap 0x20) State.reset = .next (holdStep State.reset) := ⟨rfl, rfl, rfl⟩

theorem witness_onlyNamedRegistersChange :
    exec (.lea .r0 3) State.reset = .next (defineReg .r0 0x3003 State.reset) ∧
    Reg.r1 ∉ writtenRegs (.lea .r0 3) := ⟨rfl, by decide⟩

/-- A store that changes a word, and a load that polls. -/
theorem witness_onlyStoresAndPollsChangeMemory :
    exec (.st .r1 5) (writeReg .r1 7 State.reset) =
      .next (memWrite 0x3005 7 (writeReg .r1 7 State.reset)) ∧
    storeAt 0x3005 (memWrite 0x3005 7 (writeReg .r1 7 State.reset)) ≠
      storeAt 0x3005 (writeReg .r1 7 State.reset) ∧
    (nextOf (exec (.ldr .r0 .r1 0) (typed [0x41] (writeReg .r1 0xFE00 State.reset)))).map
      (fun t => storeAt 0xFE02 t) = some 0x0041 := ⟨rfl, by decide, by decide⟩

theorem witness_consoleFlowsOneWay :
    (nextOf (step (withWord 0xF021))).map (fun t => t.console.output) = some [0x00] ∧
    (systemStep (.typed 0x41) State.reset).map (fun t => t.console.input) = some [0x41] ∧
    (systemStep .closed State.reset).map (fun t => t.console.closed) = some true := by decide

/-- The codes on either side of PUTS and PUTSP, and a zero word. -/
theorem witness_everyInstructionCompletes :
    Instr.trap 0x21 ≠ .trap 0x22 ∧ Instr.trap 0x25 ≠ .trap 0x24 ∧ storeAt 0x4000 State.reset = 0x0000 := by
  decide

theorem witness_polledStringsAlwaysEnd : (params true .hold).trapReadsPoll = true := rfl

/-- A load, and a PUTS whose string ends at 0xFDFF, one word short of 0xFE00. -/
theorem witness_typingIsUnseenUntilRead :
    readsInput (.trap 0x22) (writeReg .r0 0xFDFF State.reset) = false ∧
    meetsKbsr 0xFE00 State.reset = true ∧
    (nextOf (exec (.trap 0x22) (writeReg .r0 0xFDFF State.reset))).isSome = true ∧
    readsInput (.ld .r0 5) State.reset = false ∧
    typeChar 0x41 State.reset = some (typed [0x41] State.reset) ∧
    (nextOf (exec (.ld .r0 5) State.reset)).isSome = true := by decide

end Sys2Proof.Tests
end

section
/-! PROOF. Sign extension (R8) and the halted core (R12, R22, R108). -/

namespace Sys2Proof.Machine

/-! ### Sign extension -/

theorem sext_toInt {n : Nat} (hn : n ≤ 16) (f : BitVec n) : (sext f).toInt = f.toInt :=
  BitVec.toInt_signExtend_of_le hn

theorem sext_of_msb_false {n : Nat} {f : BitVec n} (h : f.msb = false) : sext f = f.setWidth 16 :=
  BitVec.signExtend_eq_setWidth_of_msb_false h

/-- A negative field gets ones above it: the `f | (0xFFFF << n)` of R8. -/
theorem sext_of_msb_true {n : Nat} {f : BitVec n} (h : f.msb = true) :
    sext f = f.setWidth 16 ||| (0xFFFF#16 <<< n) := by
  have hones : ∀ k (hk : k < 16), (0xFFFF#16)[k] = true := by decide
  ext i hi
  by_cases hin : i < n
  · simp [sext, BitVec.getElem_signExtend, hin, BitVec.getLsbD_eq_getElem]
  · simp [sext, BitVec.getElem_signExtend, hin, h, hones (i - n) (by omega)]

/-- Settles O7: by the field's sign bit. -/
theorem signExtensionKeepsSignedValue : Obligations.SignExtensionKeepsSignedValue := by
  intro n _ hn f
  refine ⟨sext_toInt hn f, ?_⟩
  rw [← BitVec.msb_eq_getLsbD_last]
  cases h : f.msb with
  | false => simpa using sext_of_msb_false h
  | true => simpa using sext_of_msb_true h

/-! ### The halted core -/

theorem step_of_halted {s : State} (h : s.running = false) : step s = .fault .halted := by
  simp [step, h]

/-- The core has no move where its step answers a fault. -/
theorem systemStep_core_of_fault {s : State} {r : Fault} (h : step s = .fault r) :
    systemStep .core s = none := by
  simp [systemStep, h]

/-- Settles O9: a halted core's step is a fault, and a fault is no move. -/
theorem haltedCoreHasNoStep : Obligations.HaltedCoreHasNoStep := fun _ hs =>
  ⟨step_of_halted hs, systemStep_core_of_fault (step_of_halted hs)⟩

end Sys2Proof.Machine
end

section
/-! PROOF. When a string loop ends (R32, R77, R110), and that every other instruction completes (R12, R48,
R85). -/

namespace Sys2Proof.Machine

/-! ### The reads of a string loop -/

theorem memRead_kbsr_of_nil {s : State} (h : s.console.input = []) :
    (memRead kbsr s).1 = 0x0000#16 := by
  simp only [memRead_kbsr, pollKeyboard, takeChar_nil h, storeAt_setStore_same]

theorem memRead_kbsr_input_of_cons {s : State} {c : Byte} {rest : List Byte}
    (h : s.console.input = c :: rest) : (memRead kbsr s).2.console.input = rest := by
  simp only [memRead_kbsr, pollKeyboard, takeChar_cons h, setStore_console]

theorem readString_direct (a : Word) (s : State) : readString false a s = (storeAt a s, s) := by
  simp [readString_eq]

theorem readString_polled (a : Word) (s : State) : readString true a s = memRead a s := by
  simp [readString_eq]

/-! ### One read of the loop -/

theorem emitString_of_zero {chars : Word → List Byte} {poll : Bool} {a : Word} {s : State} (fuel : Nat)
    (h : (readString poll a s).1 = 0x0000#16) :
    emitString chars poll (fuel + 1) a s = some (readString poll a s).2 := by
  simp only [emitString, h, if_true]

theorem emitString_of_ne {chars : Word → List Byte} {poll : Bool} {a : Word} {s : State} (fuel : Nat)
    (h : (readString poll a s).1 ≠ 0x0000#16) :
    emitString chars poll (fuel + 1) a s =
      emitString chars poll fuel (a + 1#16)
        (consoleWriteAll (chars (readString poll a s).1) (readString poll a s).2) := by
  simp only [emitString, if_neg h]

/-- The loop ends when its first word is zero, or when it ends from the second word on. -/
theorem emitString_succ_ends {chars : Word → List Byte} {poll : Bool} {fuel : Nat} {a : Word} {s : State}
    (h : (readString poll a s).1 ≠ 0x0000#16 → ∃ t, emitString chars poll fuel (a + 1#16)
      (consoleWriteAll (chars (readString poll a s).1) (readString poll a s).2) = some t) :
    ∃ t, emitString chars poll (fuel + 1) a s = some t := by
  by_cases h0 : (readString poll a s).1 = 0x0000#16
  · exact ⟨_, emitString_of_zero fuel h0⟩
  · rw [emitString_of_ne fuel h0]
    exact h h0

/-! ### The loop ends -/

/-- Direct reads end at a zero word `n` addresses ahead, since they change no word. -/
theorem emitString_direct_ends (chars : Word → List Byte) {n fuel : Nat} {a : Word} {s : State}
    (hn : n < fuel) (h : storeAt (a + BitVec.ofNat 16 n) s = 0x0000#16) :
    ∃ t, emitString chars false fuel a s = some t := by
  induction fuel generalizing n a s with
  | zero => omega
  | succ fuel ih =>
    refine emitString_succ_ends fun h0 => ?_
    rw [readString_direct] at h0 ⊢
    cases n with
    | zero => exact absurd (by simpa using h) h0
    | succ n =>
      have hnext : a + 1#16 + BitVec.ofNat 16 n = a + BitVec.ofNat 16 (n + 1) := by
        rw [BitVec.ofNat_add, BitVec.add_assoc, BitVec.add_comm 1#16]
      refine ih (n := n) (by omega) ?_
      rw [storeAt_congr (consoleWriteAll_store _ _), hnext, h]

/-- Polling reads end within the words up to the next 0xFE00 and one more round for every character pending:
each visit to 0xFE00 takes a character, or reads zero when none is left. -/
theorem emitString_polled_ends (chars : Word → List Byte) {fuel : Nat} {a : Word} {s : State}
    (h : s.console.input.length * 65536 + (kbsr - a).toNat < fuel) :
    ∃ t, emitString chars true fuel a s = some t := by
  induction fuel generalizing a s with
  | zero => omega
  | succ fuel ih =>
    refine emitString_succ_ends fun h0 => ih ?_
    rw [readString_polled] at h0 ⊢
    rw [consoleWriteAll_console]
    by_cases ha : a = kbsr
    · subst ha
      cases hi : s.console.input with
      | nil => exact absurd (memRead_kbsr_of_nil hi) h0
      | cons c rest =>
        have hround : (kbsr - (kbsr + 1#16)).toNat = 65535 := by decide
        rw [hi, List.length_cons, BitVec.sub_self, BitVec.toNat_zero] at h
        rw [memRead_kbsr_input_of_cons hi, hround]
        omega
    · have hdist := kbsr_distance_succ ha
      rw [memRead_of_ne ha]
      simp only [kbsr_eq] at h ⊢
      omega

/-- With direct reads a string ends when some word is zero. -/
theorem serviceString_direct_done (chars : Word → List Byte) {p : Config.Params} {s : State}
    (hp : p.trapReadsPoll = false) (h : ∃ a, storeAt a s = 0x0000#16) :
    ∃ t, serviceString chars p s = .done t := by
  obtain ⟨b, hb⟩ := h
  have hfuel : (b - readReg .r0 s).toNat < stringFuel s := by
    have := (b - readReg .r0 s).isLt
    unfold stringFuel
    omega
  have hb' : storeAt (readReg .r0 s + BitVec.ofNat 16 (b - readReg .r0 s).toNat) s = 0x0000#16 := by
    rw [BitVec.ofNat_toNat, BitVec.setWidth_eq, BitVec.add_comm, BitVec.sub_add_cancel, hb]
  obtain ⟨t, ht⟩ := emitString_direct_ends chars hfuel hb'
  exact ⟨t, by simp only [serviceString, hp, ht]⟩

/-- With polling reads every string ends. -/
theorem serviceString_polled_done (chars : Word → List Byte) {p : Config.Params}
    (hp : p.trapReadsPoll = true) (s : State) : ∃ t, serviceString chars p s = .done t := by
  have hfuel : s.console.input.length * 65536 + (kbsr - readReg .r0 s).toNat < stringFuel s := by
    have := (kbsr - readReg .r0 s).isLt
    unfold stringFuel
    omega
  obtain ⟨t, ht⟩ := emitString_polled_ends chars hfuel
  exact ⟨t, by simp only [serviceString, hp, ht]⟩

/-- Under either kind of read a string ends when some word is zero. -/
theorem serviceString_done_of_zero_word (chars : Word → List Byte) (p : Config.Params) {s : State}
    (h : ∃ a, storeAt a s = 0x0000#16) : ∃ t, serviceString chars p s = .done t := by
  cases hp : p.trapReadsPoll with
  | false => exact serviceString_direct_done chars hp h
  | true => exact serviceString_polled_done chars hp s

/-! ### Every instruction completes -/

/-- A TRAP other than PUTS and PUTSP answers a next state. -/
theorem execTrapWith_next_of_ne (p : Config.Params) {vect : BitVec 8} (h22 : vect ≠ 0x22#8)
    (h24 : vect ≠ 0x24#8) (s : State) : ∃ t, execTrapWith p vect s = .next t := by
  rcases execTrapWith_cases p vect s with ⟨t, -, h⟩ | ⟨-, -, h⟩ | ⟨h22' | h24', -⟩
  · exact ⟨t, h⟩
  · exact ⟨_, h⟩
  · exact absurd h22' h22
  · exact absurd h24' h24

theorem execTrapWith_of_done {p : Config.Params} {vect : BitVec 8} {s t : State}
    (h : runService p (serviceOf vect) (enterTrap s) = .done t) : execTrapWith p vect s = .next t := by
  simp only [execTrapWith, h]

/-- Every TRAP answers a next state where every string ends. -/
theorem execTrapWith_next_of_strings_end {p : Config.Params} {s : State}
    (h : ∀ chars, ∃ t, serviceString chars p (enterTrap s) = .done t) (vect : BitVec 8) :
    ∃ t, execTrapWith p vect s = .next t := by
  by_cases h22 : vect = 0x22#8
  · subst h22
    exact (h putsChars).imp fun _ => execTrapWith_of_done
  · by_cases h24 : vect = 0x24#8
    · subst h24
      exact (h putspChars).imp fun _ => execTrapWith_of_done
    · exact execTrapWith_next_of_ne p h22 h24 s

/-- An instruction answers a next state whenever it does as a TRAP: the other forms have no other outcome. -/
theorem exec_next_of_trap_next {i : Instr} {s : State}
    (h : ∀ vect, i = .trap vect → ∃ t, execTrapWith Config.params vect s = .next t) :
    ∃ t, exec i s = .next t := by
  cases i with
  | trap vect => exact h vect rfl
  | _ => exact ⟨_, rfl⟩

/-- Settles O58: only a TRAP can stop, of the TRAPs only PUTS and PUTSP, and these end at a zero word. -/
theorem everyInstructionCompletes : Obligations.EveryInstructionCompletes := by
  refine ⟨fun i s h22 h24 => exec_next_of_trap_next ?_, fun i s h => exec_next_of_trap_next ?_⟩
  · rintro vect rfl
    exact execTrapWith_next_of_ne _ (fun e => h22 (e ▸ rfl)) (fun e => h24 (e ▸ rfl)) s
  · intro vect _
    have hzero : ∃ a, storeAt a (enterTrap s) = 0x0000#16 :=
      h.imp fun a ha => (storeAt_congr (enterTrap_store s) a).trans ha
    exact execTrapWith_next_of_strings_end
      (fun chars => serviceString_done_of_zero_word chars _ hzero) vect

end Sys2Proof.Machine
end

section
/-! PROOF. The flag of a word and its sign (R19), the values after reset (R26, R29), and what a step of a
running core fetches and runs (R16, R31, R53). -/

namespace Sys2Proof.Machine

/-! ### SetCC -/

/-- Bit 15 is the sign, so the flag by bits and the flag by signed value are one. -/
theorem flagOf_eq_signFlag (v : Word) : flagOf v = signFlag v := by
  have hzero : v.toInt = 0 ↔ v = 0x0000#16 := by
    rw [← BitVec.toInt_inj, BitVec.toInt_zero]
  have hneg : v.toInt < 0 ↔ v.getLsbD 15 = true := by
    rw [← BitVec.msb_eq_getLsbD_last, BitVec.msb_eq_toInt, decide_eq_true_iff]
  simp only [flagOf, signFlag, hzero, hneg]

theorem defineReg_cond_eq_signFlag (dr : Reg) (v : Word) (s : State) :
    (defineReg dr v s).cond = signFlag (readReg dr (defineReg dr v s)) := by
  rw [defineReg_cond, readReg_defineReg_same, flagOf_eq_signFlag]

/-- Settles O12: `setCC` writes `flagOf`, which is the sign. -/
theorem setCCFollowsSign : Obligations.SetCCFollowsSign := fun v s =>
  ⟨rfl, flagOf_eq_signFlag v, rfl, fun dr => defineReg_cond_eq_signFlag dr v s⟩

/-! ### Reset -/

/-- Settles O47: reset lists no word, and every other value is a field of it. -/
theorem resetValues : Obligations.ResetValues :=
  ⟨fun r => by cases r <;> rfl, rfl, rfl, rfl, fun _ => rfl, rfl⟩

/-- Settles O50: the empty storage is canonical. -/
theorem resetMeetsInvariant : Obligations.ResetMeetsInvariant := reset_store_wf

/-! ### The fetch -/

theorem pollKeyboard_of_nil {s : State} (h : s.console.input = []) :
    pollKeyboard s = setStore kbsr 0x0000#16 s := by
  simp only [pollKeyboard, takeChar_nil h]

theorem pollKeyboard_of_cons {s : State} {c : Byte} {rest : List Byte}
    (h : s.console.input = c :: rest) :
    pollKeyboard s = setStore kbdr (zextChar c) (setStore kbsr 0x8000#16
      { s with console := { s.console with input := rest } }) := by
  simp only [pollKeyboard, takeChar_cons h]

theorem memRead_kbsr_of_cons {s : State} {c : Byte} {rest : List Byte}
    (h : s.console.input = c :: rest) : (memRead kbsr s).1 = 0x8000#16 := by
  rw [memRead_kbsr, pollKeyboard_of_cons h, storeAt_setStore_ne (by decide), storeAt_setStore_same]

/-- `memRead` is the memory unit of R31 and R32. -/
theorem readsWord_memRead (a : Word) (s : State) : ReadsWord a (memRead a s).1 s (memRead a s).2 := by
  obtain ⟨hx, hpc, hcond, hrun, hclosed, hout⟩ := memRead_frame a s
  refine ⟨hx, hpc, hcond, hrun, hclosed, hout, ?_⟩
  by_cases ha : a = kbsr
  · subst ha
    rw [if_pos kbsr_eq]
    refine ⟨rfl, ?_⟩
    cases hi : s.console.input with
    | nil =>
      refine ⟨memRead_kbsr_of_nil hi, ?_, fun b hb => ?_⟩
      · rw [memRead_kbsr, pollKeyboard_of_nil hi, setStore_console, hi]
      · rw [memRead_kbsr, pollKeyboard_of_nil hi]
        exact storeAt_setStore_ne hb _ s
    | cons c rest =>
      refine ⟨memRead_kbsr_of_cons hi, ?_, memRead_kbsr_input_of_cons hi, fun b =>
        memRead_storeAt_ne kbsr s⟩
      rw [memRead_kbsr, pollKeyboard_of_cons hi]
      exact storeAt_setStore_same kbdr _ _
  · rw [← kbsr_eq, if_neg ha, memRead_of_ne ha]
    exact ⟨rfl, rfl, rfl⟩

/-- The fetch is a memory read at `pc` and the increment. -/
theorem fetch_eq (s : State) :
    fetch s = ((memRead s.pc s).1, setPc (s.pc + 1#16) (memRead s.pc s).2) := by
  obtain ⟨-, hpc, -⟩ := memRead_frame s.pc s
  rw [fetch, hpc]

/-- A step away from KBSR runs the stored word. -/
theorem step_of_pc_ne {s : State} (hrun : s.running = true) (hpc : s.pc ≠ 0xFE00#16) :
    step s = exec (decode (storeAt s.pc s)) { s with pc := s.pc + 1#16 } := by
  rw [step_of_running hrun, fetch_of_ne hpc]
  rfl

/-- Settles O8: the fetch is a read by the memory unit. -/
theorem stepRunsDecodedInstruction : Obligations.StepRunsDecodedInstruction := by
  intro s hrun
  refine ⟨⟨_, _, readsWord_memRead s.pc s, ?_⟩, step_of_pc_ne hrun⟩
  rw [step_of_running hrun, fetch_eq]
  rfl

/-! ### A placed word -/

theorem ofNat_mod_toNat (w : Word) : BitVec.ofNat 16 (w.toNat % 2 ^ 16) = w := by
  rw [Nat.mod_eq_of_lt w.isLt, BitVec.ofNat_toNat, BitVec.setWidth_eq]

theorem decodeTableWord_toNat (w : Word) : decodeTableWord 16 w.toNat = some (decode w) := by
  rw [decodeTableWord, if_pos (by decide), ofNat_mod_toNat]

theorem withFetchWord_toNat (s : State) (w : Word) : s.withFetchWord 16 w.toNat = setStore s.pc w s := by
  rw [State.withFetchWord, ofNat_mod_toNat]

/-- Settles O10: the stored word at `pc` is the placed one. -/
theorem placedWordIsRun : Obligations.PlacedWordIsRun := by
  intro s w hrun hpc
  refine ⟨decodeTableWord_toNat w, ?_⟩
  have hstep : step (setStore s.pc w s) = exec (decode (storeAt s.pc (setStore s.pc w s)))
      { setStore s.pc w s with pc := s.pc + 1#16 } := step_of_pc_ne hrun hpc
  rw [withFetchWord_toNat, hstep, storeAt_setStore_same]

end Sys2Proof.Machine
end

section
/-! PROOF. What an instruction may change: registers and `cond` (R14, R20), `running` (R22), the console
(R23); and the end of the input (R75, R78, D8). -/

namespace Sys2Proof.Machine

/-! ### Registers and flags of a completed service -/

theorem emitString_of_serviceString_done {chars : Word → List Byte} {p : Config.Params} {s t : State}
    (h : serviceString chars p s = .done t) :
    emitString chars p.trapReadsPoll (stringFuel s) (readReg .r0 s) s = some t := by
  unfold serviceString at h
  split at h
  · next u hu =>
    cases h
    exact hu
  · cases h

/-- A completed service defines R0 when it is GETC or IN, and otherwise changes no register and no flag. -/
theorem runService_defines_r0_or_keeps {p : Config.Params} {vect : BitVec 8} {s t : State}
    (h : runService p (serviceOf vect) s = .done t) :
    ((vect = 0x20#8 ∨ vect = 0x23#8) ∧ ∃ w u, t = defineReg .r0 w u) ∨
    (¬(vect = 0x20#8 ∨ vect = 0x23#8) ∧ t.x = s.x ∧ t.cond = s.cond) := by
  have hstring : ∀ chars, serviceString chars p s = .done t → t.x = s.x ∧ t.cond = s.cond := by
    intro chars hs
    obtain ⟨hx, -, hcond, -⟩ := emitString_frame (emitString_of_serviceString_done hs)
    exact ⟨hx, hcond⟩
  have hvect := serviceOf_cases vect
  rcases hsv : serviceOf vect with _ | ⟨⟨⟩⟩ <;> rw [hsv] at h hvect
  case none =>
    obtain ⟨h20, -, -, h23, -⟩ := hvect
    cases h
    exact .inr ⟨not_or.mpr ⟨h20, h23⟩, rfl, rfl⟩
  case some.getc =>
    simp only [runService, serviceGetc] at h
    split at h
    · cases h
    · cases h
      exact .inl ⟨.inl hvect, _, _, rfl⟩
  case some.in =>
    simp only [runService, serviceIn] at h
    split at h
    · cases h
    · cases h
      exact .inl ⟨.inr hvect, _, _, rfl⟩
  case some.out =>
    cases h
    exact .inr ⟨by rw [hvect]; decide, rfl, rfl⟩
  case some.halt =>
    cases h
    exact .inr ⟨by rw [hvect]; decide, rfl, rfl⟩
  case some.puts => exact .inr ⟨by rw [hvect]; decide, hstring _ h⟩
  case some.putsp => exact .inr ⟨by rw [hvect]; decide, hstring _ h⟩

/-- Settles O54, over everything an instruction can have done. -/
theorem flagsChangeOnlyByDefiningInstructions : Obligations.FlagsChangeOnlyByDefiningInstructions := by
  intro i s t h
  cases exec_shape h with
  | defines dr v u hflag _ _ _ _ =>
    rw [hflag]
    exact .inl (defineReg_cond_eq_signFlag dr v u)
  | stores a v u hflag _ _ _ hreads =>
    obtain ⟨-, -, hcond, -⟩ := hreads.frame
    rw [hflag]
    exact hcond
  | jumps v hflag =>
    rw [hflag]
    rfl
  | links v hflag =>
    rw [hflag]
    rfl
  | served vect t hi hdone =>
    subst hi
    rcases runService_defines_r0_or_keeps hdone with ⟨hv, w, u, rfl⟩ | ⟨hv, -, hcond⟩
    · rw [flagReg, if_pos hv]
      exact .inl (defineReg_cond_eq_signFlag .r0 w u)
    · rw [flagReg, if_neg hv]
      exact hcond
  | held vect hi hv _ =>
    subst hi
    rw [flagReg, if_pos hv]
    exact .inr ⟨hv.imp (congrArg _) (congrArg _), rfl⟩

/-- Settles O55, over everything an instruction can have done. -/
theorem onlyNamedRegistersChange : Obligations.OnlyNamedRegistersChange := by
  intro i s t h r hr
  cases exec_shape h with
  | defines dr v u _ hregs _ _ hreads =>
    obtain ⟨hx, -⟩ := hreads.frame
    rw [hregs, List.mem_singleton] at hr
    rw [readReg_defineReg_ne hr, readReg_congr hx]
  | stores a v u _ _ _ _ hreads =>
    obtain ⟨hx, -⟩ := hreads.frame
    rw [readReg_memWrite, readReg_congr hx]
  | jumps v => rfl
  | links v _ hregs =>
    rw [hregs, List.mem_singleton] at hr
    rw [readReg_setPc, readReg_writeReg_ne hr]
  | served vect t hi hdone =>
    subst hi
    obtain ⟨hframe, -⟩ := runService_frame hdone
    rcases runService_defines_r0_or_keeps hdone with ⟨hv, -⟩ | ⟨hv, hx, -⟩
    · rw [writtenRegs, if_pos hv, List.mem_pair, not_or] at hr
      obtain ⟨h0, h7⟩ := hr
      rw [hframe r h0, readReg_enterTrap_ne h7]
    · rw [writtenRegs, if_neg hv, List.mem_singleton] at hr
      rw [readReg_congr hx, readReg_enterTrap_ne hr]
  | held => rfl

/-! ### `running` -/

/-- Only the HALT trap changes `running`. -/
theorem exec_running {i : Instr} {s t : State} (h : exec i s = .next t) (hi : i ≠ .trap 0x25#8) :
    t.running = s.running := by
  cases exec_shape h with
  | defines _ _ _ _ _ _ _ hreads =>
    obtain ⟨-, -, -, hrun, -⟩ := hreads.frame
    exact hrun
  | stores _ _ _ _ _ _ _ hreads =>
    obtain ⟨-, -, -, hrun, -⟩ := hreads.frame
    exact hrun
  | jumps => rfl
  | links => rfl
  | served vect t hvect hdone =>
    obtain ⟨-, -, hrun, -⟩ := runService_frame hdone
    refine hrun fun hsv => hi ?_
    have hhalt := serviceOf_cases vect
    rw [hsv] at hhalt
    rw [hvect, hhalt]
  | held => rfl

/-- A fetch from KBSR reads 0x8000 or 0x0000, and neither is the HALT trap (R105). -/
theorem decode_fetch_kbsr_ne_halt {s : State} (hpc : s.pc = kbsr) :
    decode (fetch s).1 ≠ .trap 0x25#8 := by
  rw [fetch_fst, hpc]
  cases hi : s.console.input with
  | nil =>
    rw [memRead_kbsr_of_nil hi]
    decide
  | cons c rest =>
    rw [memRead_kbsr_of_cons hi]
    decide

/-- The fetch keeps `running`. -/
theorem fetch_running (s : State) : (fetch s).2.running = s.running := by
  obtain ⟨-, -, -, hrun, -⟩ := memRead_frame s.pc s
  rw [fetch_eq, setPc_running, hrun]

/-- A step that stops the core runs a HALT trap fetched from storage. -/
theorem step_stops_by_halt {s t : State} (h : step s = .next t) (ht : t.running = false) :
    s.pc ≠ 0xFE00#16 ∧ decode (storeAt s.pc s) = .trap 0x25#8 := by
  obtain ⟨hrun, hexec⟩ := step_next h
  have hhalt : decode (fetch s).1 = .trap 0x25#8 := by
    by_contra hne
    rw [exec_running hexec hne, fetch_running, hrun] at ht
    cases ht
  have hpc : s.pc ≠ kbsr := fun hpc => decode_fetch_kbsr_ne_halt hpc hhalt
  rw [fetch_of_ne hpc] at hhalt
  exact ⟨hpc, hhalt⟩

/-- Settles O53: the keyboard agent leaves `running`, and a halted core has no step. -/
theorem onlyHaltClearsRunning : Obligations.OnlyHaltClearsRunning := by
  refine ⟨rfl, fun e s t h => ?_⟩
  rcases systemStep_cases h with ⟨rfl, hstep⟩ | ⟨c, rfl, -, rfl⟩ | ⟨rfl, rfl⟩
  · refine ⟨fun _ ht => ⟨rfl, step_stops_by_halt hstep ht⟩, fun hs => ?_⟩
    rw [step_of_halted hs] at hstep
    cases hstep
  · exact ⟨fun hs ht => absurd (hs.symm.trans ht) nofun, id⟩
  · exact ⟨fun hs ht => absurd (hs.symm.trans ht) nofun, id⟩

/-! ### The console -/

/-- The console as the core may move it on (R23): more output, input consumed from its oldest end, and the end
of the input as it was. -/
def ConsoleAdvances (s t : State) : Prop :=
  s.console.output <+: t.console.output ∧ t.console.input <:+ s.console.input ∧
    t.console.closed = s.console.closed

theorem ConsoleAdvances.trans {s u t : State} (h : ConsoleAdvances s u) (h' : ConsoleAdvances u t) :
    ConsoleAdvances s t := by
  obtain ⟨hout, hin, hclosed⟩ := h
  obtain ⟨hout', hin', hclosed'⟩ := h'
  exact ⟨hout.trans hout', hin'.trans hin, hclosed'.trans hclosed⟩

theorem ConsoleAdvances.of_eq {s t : State} (h : t.console = s.console) : ConsoleAdvances s t := by
  rw [ConsoleAdvances, h]
  exact ⟨List.prefix_refl _, List.suffix_refl _, rfl⟩

theorem ReadsBefore.consoleAdvances {i : Instr} {s u : State} (h : ReadsBefore i s u) :
    ConsoleAdvances s u := by
  obtain ⟨-, -, -, -, hclosed, hout, hin, -⟩ := h.frame
  exact ⟨hout ▸ List.prefix_refl _, hin, hclosed⟩

theorem fetch_consoleAdvances (s : State) : ConsoleAdvances s (fetch s).2 := by
  obtain ⟨-, -, -, -, hclosed, hout⟩ := memRead_frame s.pc s
  rw [fetch_eq]
  exact ⟨hout ▸ List.prefix_refl _, memRead_input_suffix s.pc s, hclosed⟩

theorem exec_consoleAdvances {i : Instr} {s t : State} (h : exec i s = .next t) :
    ConsoleAdvances s t := by
  cases exec_shape h with
  | defines _ _ _ _ _ _ _ hreads => exact hreads.consoleAdvances
  | stores _ _ _ _ _ _ _ hreads => exact hreads.consoleAdvances
  | jumps => exact .of_eq rfl
  | links => exact .of_eq rfl
  | served _ _ _ hdone =>
    obtain ⟨-, -, -, hclosed, hout, hin, -⟩ := runService_frame hdone
    exact ⟨hout, hin, hclosed⟩
  | held => exact .of_eq rfl

theorem step_consoleAdvances {s t : State} (h : step s = .next t) : ConsoleAdvances s t := by
  obtain ⟨-, hexec⟩ := step_next h
  exact (fetch_consoleAdvances s).trans (exec_consoleAdvances hexec)

/-- Settles O57: the fetch and the instruction both only move the console on. -/
theorem consoleFlowsOneWay : Obligations.ConsoleFlowsOneWay := by
  refine fun s t => ⟨step_consoleAdvances, fun c h => ?_, fun h => ?_⟩
  · rcases systemStep_cases h with ⟨he, -⟩ | ⟨d, he, -, ht⟩ | ⟨he, -⟩ <;> cases he
    exact ht
  · rcases systemStep_cases h with ⟨he, -⟩ | ⟨d, he, -⟩ | ⟨-, ht⟩
    · cases he
    · cases he
    · exact ht

/-! ### GETC and IN at the end of the input -/

theorem consoleRead_ended_hold {s : State} (hi : s.console.input = []) :
    consoleRead .hold s = none := by
  simp only [consoleRead, takeChar_nil hi, ite_self]

theorem consoleRead_ended_value {s : State} (hi : s.console.input = []) (hc : s.console.closed = true)
    (v : Word) : consoleRead (.value v) s = some (v, s) := by
  simp only [consoleRead, takeChar_nil hi, hc, if_true]

/-- A GETC or IN whose read answers nothing holds. -/
theorem execTrapWith_of_consoleRead_none {p : Config.Params} {vect : BitVec 8} {s : State}
    (hv : vect = 0x20#8 ∨ vect = 0x23#8) (h : consoleRead p.eofPolicy (enterTrap s) = none) :
    execTrapWith p vect s = .next (holdStep s) := by
  have hholds : runService p (serviceOf vect) (enterTrap s) = .holds := by
    rcases hv with rfl | rfl
    · show serviceGetc p (enterTrap s) = .holds
      simp only [serviceGetc, h]
    · show serviceIn p (enterTrap s) = .holds
      simp only [serviceIn, h]
  simp only [execTrapWith, hholds]

theorem execTrapWith_getc_of_read {p : Config.Params} {s u : State} {w : Word}
    (h : consoleRead p.eofPolicy (enterTrap s) = some (w, u)) :
    execTrapWith p 0x20#8 s = .next (defineReg .r0 w u) := by
  refine execTrapWith_of_done ?_
  show serviceGetc p (enterTrap s) = _
  simp only [serviceGetc, h]

theorem execTrapWith_in_of_read {p : Config.Params} {s u : State} {w : Word}
    (h : consoleRead p.eofPolicy (enterTrap s) = some (w, u)) :
    execTrapWith p 0x23#8 s =
      .next (defineReg .r0 w (consoleWrite (lowByte w) (consoleWriteAll p.inPrompt u))) := by
  refine execTrapWith_of_done ?_
  show serviceIn p (enterTrap s) = _
  simp only [serviceIn, h]

/-- The registers and the flag that a completed GETC or IN leaves, when only the console has changed since
trap entry. -/
theorem defineReg_r0_after_enterTrap (w : Word) {s u : State} (hx : u.x = (enterTrap s).x) :
    readReg .r0 (defineReg .r0 w u) = w ∧ readReg .r7 (defineReg .r0 w u) = s.pc ∧
      (∀ r, r ≠ .r0 → r ≠ .r7 → readReg r (defineReg .r0 w u) = readReg r s) ∧
      (defineReg .r0 w u).cond = signFlag w := by
  refine ⟨readReg_defineReg_same .r0 w u, ?_, fun r h0 h7 => ?_, ?_⟩
  · rw [readReg_defineReg_ne (by decide), readReg_congr hx, readReg_enterTrap_r7]
  · rw [readReg_defineReg_ne h0, readReg_congr hx, readReg_enterTrap_ne h7]
  · rw [defineReg_cond, flagOf_eq_signFlag]

theorem lowByte_eq_setWidth (w : Word) : lowByte w = w.setWidth 8 :=
  (BitVec.setWidth_eq_extractLsb' (by decide)).symm

/-- Settles O35: the read answers nothing or the policy's value, and the service follows it. -/
theorem endOfInputFollowsPolicy : Obligations.EndOfInputFollowsPolicy := by
  intro p s hi hc
  cases hp : p.eofPolicy with
  | hold =>
    have hread : consoleRead p.eofPolicy (enterTrap s) = none := by
      rw [hp]
      exact consoleRead_ended_hold hi
    exact ⟨execTrapWith_of_consoleRead_none (.inl rfl) hread,
      execTrapWith_of_consoleRead_none (.inr rfl) hread⟩
  | value v =>
    have hread : consoleRead p.eofPolicy (enterTrap s) = some (v, enterTrap s) := by
      rw [hp]
      exact consoleRead_ended_value (s := enterTrap s) hi hc v
    obtain ⟨h0, h7, hother, hcond⟩ := defineReg_r0_after_enterTrap v (s := s) rfl
    refine ⟨⟨_, execTrapWith_getc_of_read hread, h0, h7, hother, hcond, rfl, rfl, rfl, rfl⟩,
      ⟨_, execTrapWith_in_of_read hread, h0, h7, hother, hcond, rfl, rfl, rfl, ?_⟩⟩
    rw [lowByte_eq_setWidth]
    rfl

end Sys2Proof.Machine
end

section
/-! PROOF. The canonical form of the storage along every run (R98, R100). -/

namespace Sys2Proof.Machine

/-! ### Loading -/

theorem loadWords_wf (a : Nat) (ws : List Word) {m : Memory} (hm : m.wf = true) :
    (loadWords a ws m).wf = true := by
  induction ws generalizing a m with
  | nil => exact hm
  | cons w rest ih =>
    rw [loadWords]
    split
    · next ha => exact ih (a + 1) (Memory.wfFrom_write hm (Nat.zero_le a) ha w)
    · exact hm

theorem loadImage_wf {file : List Byte} {m m' : Memory} (hm : m.wf = true)
    (h : loadImage file m = some m') : m'.wf = true := by
  unfold loadImage at h
  split at h
  · split at h
    · cases h
      exact loadWords_wf _ _ hm
    · cases h
  · cases h

theorem loadImages_wf {images : List (Option (List Byte))} {m m' : Memory} (hm : m.wf = true)
    (h : loadImages images m = some m') : m'.wf = true := by
  induction images generalizing m with
  | nil =>
    cases h
    exact hm
  | cons image rest ih =>
    cases image with
    | none => cases h
    | some file =>
      rw [loadImages] at h
      split at h
      · next m₁ hload => exact ih (loadImage_wf hm hload) h
      · cases h

theorem boot_machineInv {images : List (Option (List Byte))} {s : State}
    (h : boot images = .started s) : MachineInv s := by
  cases images with
  | nil => cases h
  | cons first rest =>
    rw [boot] at h
    split at h
    · next m hload =>
      cases h
      exact loadImages_wf reset_store_wf hload
    · cases h

/-! ### Moves -/

theorem exec_machineInv {i : Instr} {s t : State} (hs : MachineInv s) (h : exec i s = .next t) :
    MachineInv t := by
  cases exec_shape h with
  | defines _ _ _ _ _ _ _ hreads =>
    obtain ⟨-, -, -, -, -, -, -, -, hwf⟩ := hreads.frame
    exact hwf hs
  | stores a v _ _ _ _ _ hreads =>
    obtain ⟨-, -, -, -, -, -, -, -, hwf⟩ := hreads.frame
    exact setStore_wf (hwf hs) a v
  | jumps => exact hs
  | links => exact hs
  | served _ _ _ hdone =>
    obtain ⟨-, -, -, -, -, -, -, hwf⟩ := runService_frame hdone
    exact hwf hs
  | held => exact hs

theorem step_machineInv {s t : State} (hs : MachineInv s) (h : step s = .next t) : MachineInv t := by
  obtain ⟨-, hexec⟩ := step_next h
  have hfetch : MachineInv (fetch s).2 := memRead_wf s.pc hs
  exact exec_machineInv hfetch hexec

theorem systemStep_machineInv {e : Event} {s t : State} (hs : MachineInv s)
    (h : systemStep e s = some t) : MachineInv t := by
  rcases systemStep_cases h with ⟨-, hstep⟩ | ⟨c, -, -, rfl⟩ | ⟨-, rfl⟩
  · exact step_machineInv hs hstep
  · exact hs
  · exact hs

/-! ### Schedules -/

/-- What every move keeps, every schedule keeps. -/
theorem runSchedule_induction {P : State → Prop}
    (hmove : ∀ {e s t}, P s → systemStep e s = some t → P t) {events : List Event} {s t : State}
    (hs : P s) (h : runSchedule events s = some t) : P t := by
  induction events generalizing s with
  | nil =>
    cases h
    exact hs
  | cons e rest ih =>
    rw [runSchedule] at h
    split at h
    · next u hu => exact ih (hmove hs hu) h
    · cases h

/-- Settles O52: loading builds a canonical storage, and every move keeps it. -/
theorem everyScheduleKeepsInvariant : Obligations.EveryScheduleKeepsInvariant :=
  fun _ _ _ _ hboot => runSchedule_induction systemStep_machineInv (boot_machineInv hboot)

end Sys2Proof.Machine
end

section
/-! PROOF. The memory unit and the storage (20_memory.md): what a read, a store and an instruction do to the
words of memory (R30 to R34, R41), and that polling string reads end (R32, R77). -/

namespace Sys2Proof.Machine

/-- Settles O51: the fetch and the instruction both keep the canonical form. -/
theorem stepKeepsInvariant : Obligations.StepKeepsInvariant := fun _ _ => step_machineInv

/-- Settles O22, at 0xFE00 by whether a character is pending. -/
theorem memReadFollowsPoll : Obligations.MemReadFollowsPoll := readsWord_memRead

/-! ### The last of two writes to one address -/

theorem Memory.erase_erase (m : Memory) (a : Nat) : (m.erase a).erase a = m.erase a := by
  simp only [Memory.erase, List.filter_filter, Bool.and_self]

theorem Memory.erase_insert (m : Memory) (a : Nat) (v : Word) : (m.insert a v).erase a = m.erase a := by
  induction m with
  | nil => simp [Memory.insert, Memory.erase]
  | cons p rest ih =>
    obtain ⟨b, w⟩ := p
    by_cases hlt : a < b
    · simp [Memory.insert, if_pos hlt, Memory.erase]
    · simp only [Memory.insert, if_neg hlt]
      simp only [Memory.erase, List.filter_cons] at ih ⊢
      rw [ih]

theorem Memory.erase_write (m : Memory) (a : Nat) (v : Word) : (m.write a v).erase a = m.erase a := by
  unfold Memory.write
  split
  · exact Memory.erase_erase m a
  · rw [Memory.erase_insert, Memory.erase_erase]

/-- A write depends only on the other addresses, so it hides an earlier write to its own. -/
theorem Memory.write_write_same (m : Memory) (a : Nat) (v w : Word) :
    (m.write a v).write a w = m.write a w := by
  rw [Memory.write, Memory.erase_write, ← Memory.write]

theorem setStore_setStore_same (a v w : Word) (s : State) :
    setStore a w (setStore a v s) = setStore a w s := by
  simp only [setStore, Memory.write_write_same]

/-- A poll writes KBSR whether or not a character is pending. -/
theorem pollKeyboard_setStore_kbsr (v : Word) (s : State) :
    pollKeyboard (setStore kbsr v s) = pollKeyboard s := by
  cases hi : s.console.input with
  | nil =>
    rw [pollKeyboard_of_nil hi, pollKeyboard_of_nil (s := setStore kbsr v s) hi, setStore_setStore_same]
  | cons c rest =>
    rw [pollKeyboard_of_cons hi, pollKeyboard_of_cons (s := setStore kbsr v s) hi]
    exact congrArg (setStore kbdr (zextChar c)) (setStore_setStore_same kbsr v 0x8000#16
      { s with console := { s.console with input := rest } })

/-- Settles O23: the poll overwrites the stored word before the read. The canonical form is not needed. -/
theorem storeToKbsrIsNeverObserved : Obligations.StoreToKbsrIsNeverObserved := by
  intro v s _
  show memRead kbsr (setStore kbsr v s) = memRead kbsr s
  rw [memRead_kbsr, memRead_kbsr, pollKeyboard_setStore_kbsr]

/-- Settles O31: the stored word is a placed word, which the next step runs. -/
theorem storeIsSeenByNextFetch : Obligations.StoreIsSeenByNextFetch := by
  rintro _ v s hpc hrun rfl
  obtain ⟨-, hstep⟩ := placedWordIsRun s v hrun hpc
  rw [withFetchWord_toNat] at hstep
  exact hstep

/-! ### The words an instruction changes -/

theorem consoleRead_store {policy : Config.EofPolicy} {s t : State} {w : Word}
    (h : consoleRead policy s = some (w, t)) : t.store = s.store := by
  rcases consoleRead_cases h with ⟨_, _, _, _, rfl⟩ | ⟨_, _, _, rfl⟩ <;> rfl

/-- Of the services only PUTS and PUTSP can change the storage. -/
theorem runService_string_or_store_eq {p : Config.Params} {sv : Option Service} {s t : State}
    (h : runService p sv s = .done t) : (sv = some .puts ∨ sv = some .putsp) ∨ t.store = s.store := by
  rcases sv with _ | ⟨⟨⟩⟩
  case none =>
    cases h
    exact .inr rfl
  case some.getc =>
    simp only [runService, serviceGetc] at h
    split at h
    · cases h
    · next w u hread =>
      cases h
      have hstore := consoleRead_store hread
      exact .inr hstore
  case some.out =>
    cases h
    exact .inr rfl
  case some.puts => exact .inl (.inl rfl)
  case some.in =>
    simp only [runService, serviceIn] at h
    split at h
    · cases h
    · next w u hread =>
      cases h
      have hstore := consoleRead_store hread
      exact .inr hstore
  case some.putsp => exact .inl (.inr rfl)
  case some.halt =>
    cases h
    exact .inr rfl

theorem mayPoll_trap_of_string_service {vect : BitVec 8}
    (h : serviceOf vect = some .puts ∨ serviceOf vect = some .putsp) : mayPoll (.trap vect) = true := by
  have hvect := serviceOf_cases vect
  rcases h with h | h <;> (rw [h] at hvect; rw [hvect]; rfl)

/-- A service changes words only where the TRAP may poll, and then KBSR and KBDR alone. -/
theorem runService_storeAt_ne {p : Config.Params} {vect : BitVec 8} {s t : State} {b : Word}
    (h : runService p (serviceOf vect) s = .done t) (hb : storeAt b t ≠ storeAt b s) :
    mayPoll (.trap vect) = true ∧ (b = kbsr ∨ b = kbdr) := by
  rcases runService_string_or_store_eq h with hsv | hstore
  · obtain ⟨-, -, -, -, -, -, hwords, -⟩ := runService_frame h
    refine ⟨mayPoll_trap_of_string_service hsv, ?_⟩
    by_contra hne
    obtain ⟨hs, hd⟩ := not_or.mp hne
    exact hb (hwords b hs hd)
  · exact absurd (storeAt_congr hstore b) hb

/-- Settles O56, over everything an instruction can have done. -/
theorem onlyStoresAndPollsChangeMemory : Obligations.OnlyStoresAndPollsChangeMemory := by
  intro i s t h b hb
  cases exec_shape h with
  | defines _ _ _ _ _ _ _ hreads =>
    obtain ⟨-, -, -, -, -, -, -, hwords, -⟩ := hreads.frame
    exact .inr (hwords b hb)
  | stores a v u _ _ haddr _ hreads =>
    by_cases hba : b = a
    · rw [hba]
      exact .inl haddr
    · obtain ⟨-, -, -, -, -, -, -, hwords, -⟩ := hreads.frame
      have hother : storeAt b (memWrite a v u) = storeAt b u := storeAt_setStore_ne hba v u
      exact .inr (hwords b (hother ▸ hb))
  | jumps => exact absurd rfl hb
  | links => exact absurd rfl hb
  | served vect t hi hdone =>
    subst hi
    exact .inr (runService_storeAt_ne hdone hb)
  | held => exact absurd rfl hb

/-! ### Polling string reads -/

/-- Settles O59: only PUTS and PUTSP could have no end, and with polling reads their strings end. -/
theorem polledStringsAlwaysEnd : Obligations.PolledStringsAlwaysEnd := fun _ vect s hp =>
  execTrapWith_next_of_strings_end (fun chars => serviceString_polled_done chars hp (enterTrap s)) vect

end Sys2Proof.Machine
end

section
/-! PROOF. The decoder and the encoder (R43 to R48): the rows of R45 as a relation, the round trip from either
side, the ignored bits, the words R50 lists as no-ops, and the waiting core (R106). -/

namespace Sys2Proof

/-! ### The decoder by the rows of R45 -/

/-- The rows of R45 with the fields of R44: a word that has an opcode, and bit 5 or 11 where two forms share the
opcode, is that form with these operands. -/
inductive WordForm (w : Word) : Instr → Prop where
  | br : field w 12 4 = 0b0000#4 →
      WordForm w (.br (w.getLsbD 11) (w.getLsbD 10) (w.getLsbD 9) (field w 0 9))
  | addReg : field w 12 4 = 0b0001#4 → w.getLsbD 5 = false →
      WordForm w (.addReg (regField w 9) (regField w 6) (regField w 0))
  | addImm : field w 12 4 = 0b0001#4 → w.getLsbD 5 = true →
      WordForm w (.addImm (regField w 9) (regField w 6) (field w 0 5))
  | ld : field w 12 4 = 0b0010#4 → WordForm w (.ld (regField w 9) (field w 0 9))
  | st : field w 12 4 = 0b0011#4 → WordForm w (.st (regField w 9) (field w 0 9))
  | jsr : field w 12 4 = 0b0100#4 → w.getLsbD 11 = true → WordForm w (.jsr (field w 0 11))
  | jsrr : field w 12 4 = 0b0100#4 → w.getLsbD 11 = false → WordForm w (.jsrr (regField w 6))
  | andReg : field w 12 4 = 0b0101#4 → w.getLsbD 5 = false →
      WordForm w (.andReg (regField w 9) (regField w 6) (regField w 0))
  | andImm : field w 12 4 = 0b0101#4 → w.getLsbD 5 = true →
      WordForm w (.andImm (regField w 9) (regField w 6) (field w 0 5))
  | ldr : field w 12 4 = 0b0110#4 → WordForm w (.ldr (regField w 9) (regField w 6) (field w 0 6))
  | str : field w 12 4 = 0b0111#4 → WordForm w (.str (regField w 9) (regField w 6) (field w 0 6))
  | rti : field w 12 4 = 0b1000#4 → WordForm w .rti
  | not : field w 12 4 = 0b1001#4 → WordForm w (.not (regField w 9) (regField w 6))
  | ldi : field w 12 4 = 0b1010#4 → WordForm w (.ldi (regField w 9) (field w 0 9))
  | sti : field w 12 4 = 0b1011#4 → WordForm w (.sti (regField w 9) (field w 0 9))
  | jmp : field w 12 4 = 0b1100#4 → WordForm w (.jmp (regField w 6))
  | res : field w 12 4 = 0b1101#4 → WordForm w .res
  | lea : field w 12 4 = 0b1110#4 → WordForm w (.lea (regField w 9) (field w 0 9))
  | trap : field w 12 4 = 0b1111#4 → WordForm w (.trap (field w 0 8))

/-- The decoder answers the form of the word. -/
theorem WordForm.decode_eq {w : Word} {i : Instr} (hf : WordForm w i) : decode w = i := by
  cases hf with
  | addReg h h5 | andReg h h5 => simp only [decode, h, h5, Bool.false_eq_true, if_false]
  | addImm h h5 | andImm h h5 => simp only [decode, h, h5, if_true]
  | jsr h h11 => simp only [decode, h, h11, if_true]
  | jsrr h h11 => simp only [decode, h, h11, Bool.false_eq_true, if_false]
  | trap h => rw [decode, h]; rfl
  | _ h => simp only [decode, h]

/-- The sixteen opcodes (R43). -/
theorem opcode_cases : ∀ op : BitVec 4,
    op = 0b0000#4 ∨ op = 0b0001#4 ∨ op = 0b0010#4 ∨ op = 0b0011#4 ∨ op = 0b0100#4 ∨ op = 0b0101#4 ∨
    op = 0b0110#4 ∨ op = 0b0111#4 ∨ op = 0b1000#4 ∨ op = 0b1001#4 ∨ op = 0b1010#4 ∨ op = 0b1011#4 ∨
    op = 0b1100#4 ∨ op = 0b1101#4 ∨ op = 0b1110#4 ∨ op = 0b1111#4 := by decide

/-- Every word has a form (R48). -/
theorem exists_wordForm (w : Word) : ∃ i, WordForm w i := by
  rcases opcode_cases (field w 12 4) with h | h | h | h | h | h | h | h | h | h | h | h | h | h | h | h
  · exact ⟨_, .br h⟩
  · cases h5 : w.getLsbD 5 with
    | false => exact ⟨_, .addReg h h5⟩
    | true => exact ⟨_, .addImm h h5⟩
  · exact ⟨_, .ld h⟩
  · exact ⟨_, .st h⟩
  · cases h11 : w.getLsbD 11 with
    | false => exact ⟨_, .jsrr h h11⟩
    | true => exact ⟨_, .jsr h h11⟩
  · cases h5 : w.getLsbD 5 with
    | false => exact ⟨_, .andReg h h5⟩
    | true => exact ⟨_, .andImm h h5⟩
  · exact ⟨_, .ldr h⟩
  · exact ⟨_, .str h⟩
  · exact ⟨_, .rti h⟩
  · exact ⟨_, .not h⟩
  · exact ⟨_, .ldi h⟩
  · exact ⟨_, .sti h⟩
  · exact ⟨_, .jmp h⟩
  · exact ⟨_, .res h⟩
  · exact ⟨_, .lea h⟩
  · exact ⟨_, .trap h⟩

/-- The decoder's answer is the form of the word. -/
theorem wordForm_decode (w : Word) : WordForm w (decode w) := by
  obtain ⟨i, hf⟩ := exists_wordForm w
  rw [hf.decode_eq]
  exact hf

/-! ### The opcode field as the word's leading hexadecimal digit -/

theorem opcodeField_toNat (w : Word) : (field w 12 4).toNat = w.toNat / 4096 := by
  have hw : w.toNat < 65536 := w.isLt
  rw [field, BitVec.extractLsb'_toNat, Nat.shiftRight_eq_div_pow]
  omega

theorem opcodeField_of_range {w : Word} {op : BitVec 4} (hlo : op.toNat * 4096 ≤ w.toNat)
    (hhi : w.toNat < (op.toNat + 1) * 4096) : field w 12 4 = op := by
  apply BitVec.eq_of_toNat_eq
  rw [opcodeField_toNat]
  omega

/-! ### Decoding an encoded instruction -/

/-- The opcode field of an encoded instruction, whatever its form. -/
theorem opcodeField_encode (i : Instr) : field (encode i) 12 4 = i.opcode := field_opcode _ _

/-- A field of an encoded instruction is that part of its form's layout. -/
theorem field_encode (i : Instr) {lo n : Nat} {f : BitVec n} (h : i.operandBits.extractLsb' lo n = f)
    (hlo : lo + n ≤ 12 := by decide) : field (encode i) lo n = f :=
  (field_below_opcode _ _ hlo).trans h

theorem bit_encode (i : Instr) {k : Nat} {b : Bool} (h : i.operandBits.extractLsb' k 1 = BitVec.ofBool b)
    (hk : k + 1 ≤ 12 := by decide) : (encode i).getLsbD k = b := by
  have hbit : BitVec.ofBool ((encode i).getLsbD k) = BitVec.ofBool b :=
    (field_one_bit _ k).symm.trans (field_encode i h hk)
  simpa using congrArg (fun v => v.getLsbD 0) hbit

theorem regField_encode (i : Instr) {lo : Nat} {r : Reg} (h : i.operandBits.extractLsb' lo 3 = r.toBits)
    (hlo : lo + 3 ≤ 12 := by decide) : regField (encode i) lo = r := by
  rw [regField, field_encode i h hlo, Reg.ofBits_toBits]

/-- Settles O1: the opcode field selects the form, and each operand is its part of the form's layout. -/
theorem decodeEncodeRoundTrip : Obligations.DecodeEncodeRoundTrip := by
  intro i
  have hop := opcodeField_encode i
  cases i with
  | br n z p offset =>
    obtain ⟨hn, hz, hp, hoff⟩ := layout_1_1_1_9 (.ofBool n) (.ofBool z) (.ofBool p) offset
    rw [(WordForm.br hop).decode_eq, bit_encode (.br ..) hn, bit_encode (.br ..) hz,
      bit_encode (.br ..) hp, field_encode (.br ..) hoff]
  | addReg dr sr1 sr2 =>
    obtain ⟨hdr, hsr1, h5, -, hsr2⟩ := layout_3_3_1_2_3 dr.toBits sr1.toBits 0b0#1 0b00#2 sr2.toBits
    rw [(WordForm.addReg hop (bit_encode (.addReg ..) h5)).decode_eq, regField_encode (.addReg ..) hdr,
      regField_encode (.addReg ..) hsr1, regField_encode (.addReg ..) hsr2]
  | addImm dr sr1 imm =>
    obtain ⟨hdr, hsr1, h5, himm⟩ := layout_3_3_1_5 dr.toBits sr1.toBits 0b1#1 imm
    rw [(WordForm.addImm hop (bit_encode (.addImm ..) h5)).decode_eq, regField_encode (.addImm ..) hdr,
      regField_encode (.addImm ..) hsr1, field_encode (.addImm ..) himm]
  | ld dr offset =>
    obtain ⟨hdr, hoff⟩ := layout_3_9 dr.toBits offset
    rw [(WordForm.ld hop).decode_eq, regField_encode (.ld ..) hdr, field_encode (.ld ..) hoff]
  | st sr offset =>
    obtain ⟨hsr, hoff⟩ := layout_3_9 sr.toBits offset
    rw [(WordForm.st hop).decode_eq, regField_encode (.st ..) hsr, field_encode (.st ..) hoff]
  | jsr offset =>
    obtain ⟨h11, hoff⟩ := layout_1_11 0b1#1 offset
    rw [(WordForm.jsr hop (bit_encode (.jsr ..) h11)).decode_eq, field_encode (.jsr ..) hoff]
  | jsrr base =>
    obtain ⟨h11, -, hbase, -⟩ := layout_1_2_3_6 0b0#1 0b00#2 base.toBits 0b000000#6
    rw [(WordForm.jsrr hop (bit_encode (.jsrr ..) h11)).decode_eq, regField_encode (.jsrr ..) hbase]
  | andReg dr sr1 sr2 =>
    obtain ⟨hdr, hsr1, h5, -, hsr2⟩ := layout_3_3_1_2_3 dr.toBits sr1.toBits 0b0#1 0b00#2 sr2.toBits
    rw [(WordForm.andReg hop (bit_encode (.andReg ..) h5)).decode_eq, regField_encode (.andReg ..) hdr,
      regField_encode (.andReg ..) hsr1, regField_encode (.andReg ..) hsr2]
  | andImm dr sr1 imm =>
    obtain ⟨hdr, hsr1, h5, himm⟩ := layout_3_3_1_5 dr.toBits sr1.toBits 0b1#1 imm
    rw [(WordForm.andImm hop (bit_encode (.andImm ..) h5)).decode_eq, regField_encode (.andImm ..) hdr,
      regField_encode (.andImm ..) hsr1, field_encode (.andImm ..) himm]
  | ldr dr base offset =>
    obtain ⟨hdr, hbase, hoff⟩ := layout_3_3_6 dr.toBits base.toBits offset
    rw [(WordForm.ldr hop).decode_eq, regField_encode (.ldr ..) hdr, regField_encode (.ldr ..) hbase,
      field_encode (.ldr ..) hoff]
  | str sr base offset =>
    obtain ⟨hsr, hbase, hoff⟩ := layout_3_3_6 sr.toBits base.toBits offset
    rw [(WordForm.str hop).decode_eq, regField_encode (.str ..) hsr, regField_encode (.str ..) hbase,
      field_encode (.str ..) hoff]
  | rti => exact (WordForm.rti hop).decode_eq
  | not dr sr =>
    obtain ⟨hdr, hsr, -⟩ := layout_3_3_6 dr.toBits sr.toBits 0b111111#6
    rw [(WordForm.not hop).decode_eq, regField_encode (.not ..) hdr, regField_encode (.not ..) hsr]
  | ldi dr offset =>
    obtain ⟨hdr, hoff⟩ := layout_3_9 dr.toBits offset
    rw [(WordForm.ldi hop).decode_eq, regField_encode (.ldi ..) hdr, field_encode (.ldi ..) hoff]
  | sti sr offset =>
    obtain ⟨hsr, hoff⟩ := layout_3_9 sr.toBits offset
    rw [(WordForm.sti hop).decode_eq, regField_encode (.sti ..) hsr, field_encode (.sti ..) hoff]
  | jmp base =>
    obtain ⟨-, hbase, -⟩ := layout_3_3_6 0b000#3 base.toBits 0b000000#6
    rw [(WordForm.jmp hop).decode_eq, regField_encode (.jmp ..) hbase]
  | res => exact (WordForm.res hop).decode_eq
  | lea dr offset =>
    obtain ⟨hdr, hoff⟩ := layout_3_9 dr.toBits offset
    rw [(WordForm.lea hop).decode_eq, regField_encode (.lea ..) hdr, field_encode (.lea ..) hoff]
  | trap vect =>
    obtain ⟨-, hvect⟩ := layout_4_8 0b0000#4 vect
    rw [(WordForm.trap hop).decode_eq, field_encode (.trap ..) hvect]

/-- Settles O5: twelve closed words. -/
theorem decodeOfWrittenWords : Obligations.DecodeOfWrittenWords := by
  unfold Obligations.DecodeOfWrittenWords
  decide

/-! ### Fields under a mask -/

theorem field_and (w m : Word) (lo n : Nat) : field (w &&& m) lo n = field w lo n &&& field m lo n :=
  BitVec.extractLsb'_and

theorem field_or (w m : Word) (lo n : Nat) : field (w ||| m) lo n = field w lo n ||| field m lo n :=
  BitVec.extractLsb'_or

/-- A field the mask keeps. -/
theorem field_and_of_ones {m : Word} {lo n : Nat} (h : field m lo n = BitVec.allOnes n) (w : Word) :
    field (w &&& m) lo n = field w lo n := by
  rw [field_and, h, BitVec.and_allOnes]

/-- A field the mask clears. -/
theorem field_and_of_zeros {m : Word} {lo n : Nat} (h : field m lo n = 0#n) (w : Word) :
    field (w &&& m) lo n = 0#n := by
  rw [field_and, h, BitVec.and_zero]

/-- A field of a matched word, where the mask keeps it. -/
theorem field_of_match {w m k : Word} {lo n : Nat} {f : BitVec n} (h : w &&& m = k)
    (hm : field m lo n = BitVec.allOnes n := by decide) (hk : field k lo n = f := by decide) :
    field w lo n = f := by
  rw [← field_and_of_ones hm w, h, hk]

/-- A bit of a matched word, where the mask keeps it. -/
theorem bit_of_match {w m k : Word} {i : Nat} {b : Bool} (h : w &&& m = k)
    (hm : m.getLsbD i = true := by decide) (hk : k.getLsbD i = b := by decide) : w.getLsbD i = b := by
  rw [← hk, ← h, BitVec.getLsbD_and, hm, Bool.and_true]

/-- Settles O3: a row's mask keeps the opcode field, and bit 5 or 11 where its form needs it. -/
theorem decodeFollowsMatchAndMask : Obligations.DecodeFollowsMatchAndMask := by
  intro w reg
  exact ⟨fun h => (WordForm.br (field_of_match h)).decode_eq,
    fun h => (WordForm.addReg (field_of_match h) (bit_of_match h)).decode_eq,
    fun h => (WordForm.addImm (field_of_match h) (bit_of_match h)).decode_eq,
    fun h => (WordForm.ld (field_of_match h)).decode_eq,
    fun h => (WordForm.st (field_of_match h)).decode_eq,
    fun h => (WordForm.jsr (field_of_match h) (bit_of_match h)).decode_eq,
    fun h => (WordForm.jsrr (field_of_match h) (bit_of_match h)).decode_eq,
    fun h => (WordForm.andReg (field_of_match h) (bit_of_match h)).decode_eq,
    fun h => (WordForm.andImm (field_of_match h) (bit_of_match h)).decode_eq,
    fun h => (WordForm.ldr (field_of_match h)).decode_eq,
    fun h => (WordForm.str (field_of_match h)).decode_eq,
    fun h => (WordForm.rti (field_of_match h)).decode_eq,
    fun h => (WordForm.not (field_of_match h)).decode_eq,
    fun h => (WordForm.ldi (field_of_match h)).decode_eq,
    fun h => (WordForm.sti (field_of_match h)).decode_eq,
    fun h => (WordForm.jmp (field_of_match h)).decode_eq,
    fun h => (WordForm.res (field_of_match h)).decode_eq,
    fun h => (WordForm.lea (field_of_match h)).decode_eq,
    fun h => (WordForm.trap (field_of_match h)).decode_eq⟩

/-! ### Encoding a decoded word -/

/-- The ignored bits of each form (R47). -/
def Instr.ignoredMask : Instr → Word
  | .addReg .. | .andReg .. => 0x0018#16
  | .jsrr .. => 0x063F#16
  | .rti | .res => 0x0FFF#16
  | .not .. => 0x003F#16
  | .jmp .. => 0x0E3F#16
  | .trap .. => 0x0F00#16
  | .br .. | .addImm .. | .ld .. | .st .. | .jsr .. | .andImm .. | .ldr .. | .str .. => 0x0000#16
  | .ldi .. | .sti .. | .lea .. => 0x0000#16

/-- What the assembler writes there for each form (R45). -/
def Instr.fillBits : Instr → Word
  | .not .. => 0x003F#16
  | _ => 0x0000#16

/-- The opcode comparisons of `ignoredBits` are about the opcode field. -/
theorem shiftRight_twelve (w : Word) : w >>> 12 = (field w 12 4).setWidth 16 := by
  apply BitVec.eq_of_toNat_eq
  have hdigit : w.toNat / 4096 < 65536 := by have := w.isLt; omega
  rw [BitVec.toNat_ushiftRight, BitVec.toNat_setWidth, opcodeField_toNat, Nat.shiftRight_eq_div_pow,
    Nat.mod_eq_of_lt hdigit]

theorem WordForm.ignoredBits_eq {w : Word} {i : Instr} (hf : WordForm w i) : ignoredBits w = i.ignoredMask := by
  cases hf with
  | addReg h hb | addImm h hb | jsr h hb | jsrr h hb | andReg h hb | andImm h hb =>
    rw [ignoredBits, shiftRight_twelve, h, hb]; rfl
  | _ h => rw [ignoredBits, shiftRight_twelve, h]; rfl

theorem WordForm.assemblerBits_eq {w : Word} {i : Instr} (hf : WordForm w i) :
    assemblerBits w = i.fillBits := by
  cases hf with
  | _ h => rw [assemblerBits, shiftRight_twelve, h]; rfl

theorem toBits_regField (w : Word) (lo : Nat) : (regField w lo).toBits = field w lo 3 :=
  Reg.toBits_ofBits _

/-- Adjacent fields side by side are one field. -/
theorem append_eq_field {w : Word} {lo m n : Nat} {a : BitVec m} {b : BitVec n}
    (ha : a = field w (lo + n) m) (hb : b = field w lo n) : a ++ b = field w lo (m + n) := by
  rw [ha, hb]
  exact BitVec.extractLsb'_append_extractLsb'_eq_extractLsb' rfl

/-- An encoded instruction is the word with its opcode and its operand bits. -/
theorem encode_eq {i : Instr} {w : Word} (hop : i.opcode = field w 12 4)
    (hb : i.operandBits = field w 0 12) : encode i = w :=
  (append_eq_field hop hb).trans BitVec.extractLsb'_eq_self

/-- A field clear of the ignored bits is the word's own. -/
theorem eq_field_of_kept {w m a : Word} {lo n : Nat} {f : BitVec n} (h : f = field w lo n)
    (hm : field (~~~m) lo n = BitVec.allOnes n := by decide) (ha : field a lo n = 0#n := by decide) :
    f = field (w &&& ~~~m ||| a) lo n := by
  rw [field_or, field_and_of_ones hm, ha, BitVec.or_zero, h]

/-- A field inside the ignored bits is the assembler's. -/
theorem eq_field_of_filled {w m a : Word} {lo n : Nat} {f : BitVec n}
    (hm : field (~~~m) lo n = 0#n := by decide) (ha : f = field a lo n := by decide) :
    f = field (w &&& ~~~m ||| a) lo n := by
  rw [field_or, field_and_of_zeros hm, BitVec.zero_or, ha]

/-- Encoding a form gives its word with the ignored bits replaced by the assembler's. -/
theorem WordForm.encode_eq_standard {w : Word} {i : Instr} (hf : WordForm w i) :
    encode i = w &&& ~~~i.ignoredMask ||| i.fillBits := by
  have hr9 := toBits_regField w 9
  have hr6 := toBits_regField w 6
  cases hf with
  | br h =>
    show encode _ = w &&& ~~~0x0000#16 ||| 0x0000#16
    exact encode_eq (eq_field_of_kept h.symm) (append_eq_field (append_eq_field (append_eq_field
      (eq_field_of_kept (field_one_bit w 11).symm) (eq_field_of_kept (field_one_bit w 10).symm))
      (eq_field_of_kept (field_one_bit w 9).symm)) (eq_field_of_kept rfl))
  | ld h | st h | ldi h | sti h | lea h =>
    show encode _ = w &&& ~~~0x0000#16 ||| 0x0000#16
    exact encode_eq (eq_field_of_kept h.symm) (append_eq_field (eq_field_of_kept hr9) (eq_field_of_kept rfl))
  | ldr h | str h =>
    show encode _ = w &&& ~~~0x0000#16 ||| 0x0000#16
    exact encode_eq (eq_field_of_kept h.symm) (append_eq_field (append_eq_field (eq_field_of_kept hr9)
      (eq_field_of_kept hr6)) (eq_field_of_kept rfl))
  | addReg h h5 | andReg h h5 =>
    have h5' : 0b0#1 = field w 5 1 := by rw [field_one_bit, h5]; rfl
    show encode _ = w &&& ~~~0x0018#16 ||| 0x0000#16
    exact encode_eq (eq_field_of_kept h.symm) (append_eq_field (append_eq_field (append_eq_field
      (append_eq_field (eq_field_of_kept hr9) (eq_field_of_kept hr6)) (eq_field_of_kept h5'))
      eq_field_of_filled) (eq_field_of_kept (toBits_regField w 0)))
  | addImm h h5 | andImm h h5 =>
    have h5' : 0b1#1 = field w 5 1 := by rw [field_one_bit, h5]; rfl
    show encode _ = w &&& ~~~0x0000#16 ||| 0x0000#16
    exact encode_eq (eq_field_of_kept h.symm) (append_eq_field (append_eq_field
      (append_eq_field (eq_field_of_kept hr9) (eq_field_of_kept hr6)) (eq_field_of_kept h5'))
      (eq_field_of_kept rfl))
  | jsr h h11 =>
    have h11' : 0b1#1 = field w 11 1 := by rw [field_one_bit, h11]; rfl
    show encode _ = w &&& ~~~0x0000#16 ||| 0x0000#16
    exact encode_eq (eq_field_of_kept h.symm) (append_eq_field (eq_field_of_kept h11') (eq_field_of_kept rfl))
  | jsrr h h11 =>
    have h11' : 0b0#1 = field w 11 1 := by rw [field_one_bit, h11]; rfl
    show encode _ = w &&& ~~~0x063F#16 ||| 0x0000#16
    exact encode_eq (eq_field_of_kept h.symm) (append_eq_field (append_eq_field (append_eq_field
      (eq_field_of_kept h11') eq_field_of_filled) (eq_field_of_kept hr6)) eq_field_of_filled)
  | rti h | res h =>
    show encode _ = w &&& ~~~0x0FFF#16 ||| 0x0000#16
    exact encode_eq (eq_field_of_kept h.symm) eq_field_of_filled
  | not h =>
    show encode _ = w &&& ~~~0x003F#16 ||| 0x003F#16
    exact encode_eq (eq_field_of_kept h.symm) (append_eq_field (append_eq_field (eq_field_of_kept hr9)
      (eq_field_of_kept hr6)) eq_field_of_filled)
  | jmp h =>
    show encode _ = w &&& ~~~0x0E3F#16 ||| 0x0000#16
    exact encode_eq (eq_field_of_kept h.symm) (append_eq_field (append_eq_field eq_field_of_filled
      (eq_field_of_kept hr6)) eq_field_of_filled)
  | trap h =>
    show encode _ = w &&& ~~~0x0F00#16 ||| 0x0000#16
    exact encode_eq (eq_field_of_kept h.symm) (append_eq_field eq_field_of_filled (eq_field_of_kept rfl))

/-- Encoding a decoded word gives the word with its ignored bits replaced by the assembler's. -/
theorem encode_decode (w : Word) : encode (decode w) = w &&& ~~~ignoredBits w ||| assemblerBits w := by
  have hf := wordForm_decode w
  rw [hf.ignoredBits_eq, hf.assemblerBits_eq, hf.encode_eq_standard]

/-- The assembler's bits are ignored ones. -/
theorem assemblerBits_and_ignoredBits (w : Word) : assemblerBits w &&& ignoredBits w = assemblerBits w := by
  by_cases h : w >>> 12 = 0x9#16 <;> simp [assemblerBits, ignoredBits, h]

/-- The bits of a mask after they were cleared and filled are the filling's. -/
theorem fill_and (w m a : Word) : (w &&& ~~~m ||| a) &&& m = a &&& m := by
  ext i hi
  cases hmi : m[i] <;> simp [hmi]

/-- Filling the bits of a mask leaves a word as it is exactly when they already hold the filling. -/
theorem fill_eq_self_iff {w m a : Word} (ha : a &&& m = a) : w &&& ~~~m ||| a = w ↔ w &&& m = a := by
  constructor
  · intro h
    calc w &&& m = (w &&& ~~~m ||| a) &&& m := by rw [h]
      _ = a &&& m := by rw [fill_and]
      _ = a := ha
  · rintro rfl
    ext i hi
    cases hmi : m[i] <;> simp [hmi]

/-- Settles O2: encoding fills the ignored bits, which changes nothing exactly when they are
the standard ones. -/
theorem encodeDecodeOnCanonicalWords : Obligations.EncodeDecodeOnCanonicalWords := by
  intro w
  rw [encode_decode, fill_eq_self_iff (assemblerBits_and_ignoredBits w), canonicalWord, beq_iff_eq]

/-! ### Words that differ only in ignored bits -/

/-- No form ignores a bit of its opcode. -/
theorem opcodeField_not_ignoredMask (i : Instr) : field (~~~i.ignoredMask) 12 4 = BitVec.allOnes 4 := by
  cases i <;> (simp only [Instr.ignoredMask]; decide)

section
variable {w v : Word} (h : w &&& ~~~ignoredBits w = v &&& ~~~ignoredBits w)
include h

theorem shiftRight_of_eq_outside : v >>> 12 = w >>> 12 := by
  have hkept : field (~~~ignoredBits w) 12 4 = BitVec.allOnes 4 := by
    rw [(wordForm_decode w).ignoredBits_eq, opcodeField_not_ignoredMask]
  rw [shiftRight_twelve, shiftRight_twelve, ← field_and_of_ones hkept v, ← h, field_and_of_ones hkept w]

theorem bit_of_eq_outside {k : Nat} (hk : (~~~ignoredBits w).getLsbD k = true) : v.getLsbD k = w.getLsbD k := by
  have hbit : (v &&& ~~~ignoredBits w).getLsbD k = (w &&& ~~~ignoredBits w).getLsbD k := by rw [h]
  rwa [BitVec.getLsbD_and, BitVec.getLsbD_and, hk, Bool.and_true, Bool.and_true] at hbit

theorem assemblerBits_of_eq_outside : assemblerBits v = assemblerBits w := by
  rw [assemblerBits, shiftRight_of_eq_outside h, assemblerBits]

/-- The bits that decide what is ignored, the opcode and bit 5 or 11 with it, are not ignored. -/
theorem ignoredBits_of_eq_outside : ignoredBits v = ignoredBits w := by
  have hop := shiftRight_of_eq_outside h
  by_cases h15 : w >>> 12 = 0x1#16 ∨ w >>> 12 = 0x5#16
  · have h5 : v.getLsbD 5 = w.getLsbD 5 :=
      bit_of_eq_outside h (by rw [ignoredBits, if_pos h15]; split <;> decide)
    simp only [ignoredBits, hop, if_pos h15, h5]
  · by_cases h4 : w >>> 12 = 0x4#16
    · have h11 : v.getLsbD 11 = w.getLsbD 11 :=
        bit_of_eq_outside h (by
          simp only [ignoredBits, h4, BitVec.reduceEq, or_self, if_true, if_false]
          split <;> decide)
      simp only [ignoredBits, hop, if_neg h15, h11]
    · simp only [ignoredBits, hop, if_neg h15, if_neg h4]

end

/-- Settles O4: the two words are encoded alike, and decoding undoes encoding. -/
theorem ignoredBitsDoNotMatter : Obligations.IgnoredBitsDoNotMatter := by
  intro w v h
  have hencode : encode (decode v) = encode (decode w) := by
    rw [encode_decode, encode_decode, ignoredBits_of_eq_outside h, assemblerBits_of_eq_outside h, h]
  rw [← decodeEncodeRoundTrip (decode v), hencode, decodeEncodeRoundTrip]

end Sys2Proof

namespace Sys2Proof.Machine

/-! ### The no-op words and the waiting core -/

/-- BR with no condition bit set is never taken (R60). -/
theorem exec_br_never (offset : BitVec 9) (s : State) : exec (.br false false false offset) s = .next s := by
  have hnot : branchTaken false false false s.cond = false := by cases s.cond <;> decide
  show execBr false false false offset s = .next s
  rw [execBr, hnot]
  rfl

/-- Settles O6: the leading digit makes the word RTI, RES or BR, and below 0x0200 BR has no condition bit. -/
theorem noOpWordsChangeNothing : Obligations.NoOpWordsChangeNothing := by
  intro w s h
  rcases h with ⟨hlo, hhi⟩ | ⟨hlo, hhi⟩ | hhi
  · rw [(WordForm.rti (opcodeField_of_range hlo (Nat.lt_succ_of_le hhi))).decode_eq]
    rfl
  · rw [(WordForm.res (opcodeField_of_range hlo (Nat.lt_succ_of_le hhi))).decode_eq]
    rfl
  · have hbit : ∀ k, 0x01FF < 2 ^ k → w.getLsbD k = false := fun k hk =>
      Nat.testBit_eq_false_of_lt (hhi.trans_lt hk)
    have hop : field w 12 4 = 0b0000#4 := opcodeField_of_range (Nat.zero_le _) (hhi.trans_lt (by decide))
    rw [(WordForm.br hop).decode_eq, hbit 11 (by decide), hbit 10 (by decide), hbit 9 (by decide)]
    exact exec_br_never _ s

/-- A held step puts the fetch's increment back. -/
theorem holdStep_advanced (s : State) : holdStep { s with pc := s.pc + 1#16 } = s := by
  rw [holdStep, BitVec.add_sub_cancel]
  rfl

/-- Settles O45: the fetched GETC or IN finds no character, so it holds. -/
theorem waitingStepChangesNothing : Obligations.WaitingStepChangesNothing := by
  rintro s ⟨hrun, hpc, hword, hinput, hopen⟩
  have hread : consoleRead Config.params.eofPolicy (enterTrap { s with pc := s.pc + 1#16 }) = none :=
    consoleRead_open _ hinput hopen
  have hexec : ∀ vect, vect = 0x20#8 ∨ vect = 0x23#8 →
      exec (.trap vect) { s with pc := s.pc + 1#16 } = .next s := fun vect hv =>
    (execTrapWith_of_consoleRead_none hv hread).trans (congrArg _ (holdStep_advanced s))
  rw [step_of_pc_ne hrun hpc]
  rcases hword with h | h <;> rw [h]
  · exact hexec _ (.inl rfl)
  · exact hexec _ (.inr rfl)

end Sys2Proof.Machine
end

section
/-! PROOF. The operate instructions (40_operate.md): each defines its destination register from the sources as
they were (R54 to R59). -/

namespace Sys2Proof.Machine

/-! ### The write of a destination register -/

/-- `defineReg` is the register write and SetCC of R19 and R20, with their frame. -/
theorem definesReg_defineReg (dr : Reg) (v : Word) (s : State) : DefinesReg dr v s (defineReg dr v s) := by
  refine ⟨readReg_defineReg_same dr v s, ?_, fun r hr => readReg_defineReg_ne hr v s,
    defineReg_pc dr v s, defineReg_running dr v s, defineReg_store dr v s, defineReg_console dr v s⟩
  rw [defineReg_cond, flagOf_eq_signFlag]

/-! ### The state each form answers -/

theorem exec_addReg (dr sr1 sr2 : Reg) (s : State) :
    exec (.addReg dr sr1 sr2) s = .next (defineReg dr (readReg sr1 s + readReg sr2 s) s) := rfl

theorem exec_addImm (dr sr1 : Reg) (imm : BitVec 5) (s : State) :
    exec (.addImm dr sr1 imm) s = .next (defineReg dr (readReg sr1 s + imm.signExtend 16) s) := rfl

theorem exec_andReg (dr sr1 sr2 : Reg) (s : State) :
    exec (.andReg dr sr1 sr2) s = .next (defineReg dr (readReg sr1 s &&& readReg sr2 s) s) := rfl

theorem exec_andImm (dr sr1 : Reg) (imm : BitVec 5) (s : State) :
    exec (.andImm dr sr1 imm) s = .next (defineReg dr (readReg sr1 s &&& imm.signExtend 16) s) := rfl

theorem exec_not (dr sr : Reg) (s : State) :
    exec (.not dr sr) s = .next (defineReg dr (~~~ readReg sr s) s) := rfl

/-! ### The statements -/

/-- Settles O13: ADD defines DR with the sum of the two sources, read before the write. -/
theorem addRegisterResult : Obligations.AddRegisterResult := fun dr sr1 sr2 s =>
  ⟨_, exec_addReg dr sr1 sr2 s, definesReg_defineReg dr _ s⟩

/-- Settles O14: ADD defines DR with the source plus the extended immediate. -/
theorem addImmediateResult : Obligations.AddImmediateResult := fun dr sr1 imm s =>
  ⟨_, exec_addImm dr sr1 imm s, definesReg_defineReg dr _ s⟩

/-- Settles O15: AND defines DR with the conjunction of the two sources, read before the write. -/
theorem andRegisterResult : Obligations.AndRegisterResult := fun dr sr1 sr2 s =>
  ⟨_, exec_andReg dr sr1 sr2 s, definesReg_defineReg dr _ s⟩

/-- Settles O16: AND defines DR with the conjunction of the source and the extended immediate. -/
theorem andImmediateResult : Obligations.AndImmediateResult := fun dr sr1 imm s =>
  ⟨_, exec_andImm dr sr1 imm s, definesReg_defineReg dr _ s⟩

/-- Settles O17: NOT defines DR with the complement of the source. -/
theorem notResult : Obligations.NotResult := fun dr sr s =>
  ⟨_, exec_not dr sr s, definesReg_defineReg dr _ s⟩

end Sys2Proof.Machine
end

section
/-! PROOF. The control transfers (41_control.md): BR's test, the jump through a register, and the two calls that
save the return address first (R60 to R63). -/

namespace Sys2Proof.Machine

/-! ### BR and JMP -/

/-- The branch-condition bits meet the one-hot bits of `cond` exactly at the flag it holds (R18, R60). -/
theorem branchTaken_iff (n z p : Bool) (c : Cond) :
    branchTaken n z p c = true ↔ c = .n ∧ n = true ∨ c = .z ∧ z = true ∨ c = .p ∧ p = true := by
  cases c <;> revert n z p <;> decide

theorem exec_br_of_taken {n z p : Bool} {s : State} (h : branchTaken n z p s.cond = true) (offset : BitVec 9) :
    exec (.br n z p offset) s = .next (setPc (s.pc + offset.signExtend 16) s) :=
  congrArg Host.Outcome.next (if_pos h)

theorem exec_br_of_not_taken {n z p : Bool} {s : State} (h : ¬ branchTaken n z p s.cond = true)
    (offset : BitVec 9) : exec (.br n z p offset) s = .next s :=
  congrArg Host.Outcome.next (if_neg h)

theorem exec_jmp (base : Reg) (s : State) : exec (.jmp base) s = .next (setPc (readReg base s) s) := rfl

/-! ### JSR and JSRR -/

/-- A call to `target`: the return address goes to R7, then `pc` is set, and nothing else changes (R62, R63). -/
theorem setPc_writeReg_r7_frame (target : Word) (s : State) :
    readReg .r7 (setPc target (writeReg .r7 s.pc s)) = s.pc ∧
      (∀ r, r ≠ .r7 → readReg r (setPc target (writeReg .r7 s.pc s)) = readReg r s) ∧
      (setPc target (writeReg .r7 s.pc s)).cond = s.cond ∧
      (setPc target (writeReg .r7 s.pc s)).running = s.running ∧
      (setPc target (writeReg .r7 s.pc s)).store = s.store ∧
      (setPc target (writeReg .r7 s.pc s)).console = s.console :=
  ⟨readReg_writeReg_same .r7 s.pc s, fun _ hr => readReg_writeReg_ne hr s.pc s, rfl, rfl, rfl, rfl⟩

/-- A register read after a write is the written value at that register, and the old value elsewhere. -/
theorem readReg_writeReg_eq_ite (q r : Reg) (v : Word) (s : State) :
    readReg q (writeReg r v s) = if q = r then v else readReg q s := by
  split
  · next h => rw [h, readReg_writeReg_same]
  · next h => rw [readReg_writeReg_ne h]

theorem exec_jsr (offset : BitVec 11) (s : State) :
    exec (.jsr offset) s = .next (setPc (s.pc + offset.signExtend 16) (writeReg .r7 s.pc s)) := rfl

theorem exec_jsrr (base : Reg) (s : State) :
    exec (.jsrr base) s =
      .next (setPc (readReg base (writeReg .r7 s.pc s)) (writeReg .r7 s.pc s)) := rfl

/-! ### The statements -/

/-- Settles O18: by whether the branch is taken, which is the bit of the current flag. -/
theorem branchResult : Obligations.BranchResult := by
  intro n z p offset s
  simp only [← branchTaken_iff]
  split
  · next h => exact exec_br_of_taken h offset
  · next h => exact exec_br_of_not_taken h offset

/-- Settles O19: `setPc` writes only `pc`. -/
theorem jumpResult : Obligations.JumpResult := exec_jmp

/-- Settles O20: a call to the PC-relative target. -/
theorem jsrResult : Obligations.JsrResult := fun offset s =>
  ⟨_, exec_jsr offset s, rfl, setPc_writeReg_r7_frame _ s⟩

/-- Settles O21: a call to the base register as it is after R7 got the return address. -/
theorem jsrrResult : Obligations.JsrrResult := fun base s =>
  ⟨_, exec_jsrr base s, readReg_writeReg_eq_ite base .r7 s.pc s, setPc_writeReg_r7_frame _ s⟩

end Sys2Proof.Machine
end

section
/-! PROOF. Loads, stores and LEA (42_load_store.md): a load is a read by the memory unit and then the write of DR in
the state that read left; a store is one `memWrite`, after the pointer read for STI (R66 to R72). -/

namespace Sys2Proof.Machine

/-! ### The store and the registers after a read -/

/-- `memWrite` stores the word and leaves everything else, KBSR and KBDR being ordinary words to it (R30). -/
theorem storesWord_memWrite (a v : Word) (s : State) : StoresWord a v s (memWrite a v s) :=
  ⟨storeAt_setStore_same a v s, fun _ hb => storeAt_setStore_ne hb v s, memWrite_x a v s, memWrite_pc a v s,
    memWrite_cond a v s, memWrite_running a v s, memWrite_console a v s⟩

/-- A memory read changes no register, the poll included (R32). -/
theorem readReg_memRead (r : Reg) (a : Word) (s : State) : readReg r (memRead a s).2 = readReg r s :=
  readReg_congr (memRead_frame a s).1 r

/-! ### The state each form answers -/

theorem exec_ld (dr : Reg) (offset : BitVec 9) (s : State) :
    exec (.ld dr offset) s =
      .next (defineReg dr (memRead (s.pc + offset.signExtend 16) s).1
        (memRead (s.pc + offset.signExtend 16) s).2) := rfl

theorem exec_ldi (dr : Reg) (offset : BitVec 9) (s : State) :
    exec (.ldi dr offset) s =
      .next (defineReg dr (memRead (pcIndirect offset s).1 (pcIndirect offset s).2).1
        (memRead (pcIndirect offset s).1 (pcIndirect offset s).2).2) := rfl

theorem exec_ldr (dr base : Reg) (offset : BitVec 6) (s : State) :
    exec (.ldr dr base offset) s =
      .next (defineReg dr (memRead (readReg base s + offset.signExtend 16) s).1
        (memRead (readReg base s + offset.signExtend 16) s).2) := rfl

theorem exec_lea (dr : Reg) (offset : BitVec 9) (s : State) :
    exec (.lea dr offset) s = .next (defineReg dr (s.pc + offset.signExtend 16) s) := rfl

theorem exec_st (sr : Reg) (offset : BitVec 9) (s : State) :
    exec (.st sr offset) s = .next (memWrite (s.pc + offset.signExtend 16) (readReg sr s) s) := rfl

/-- STI reads SR after the pointer read, which has not changed it. -/
theorem exec_sti (sr : Reg) (offset : BitVec 9) (s : State) :
    exec (.sti sr offset) s =
      .next (memWrite (pcIndirect offset s).1 (readReg sr s) (pcIndirect offset s).2) := by
  rw [← readReg_memRead sr (pcRelative offset s) s]
  rfl

theorem exec_str (sr base : Reg) (offset : BitVec 6) (s : State) :
    exec (.str sr base offset) s =
      .next (memWrite (readReg base s + offset.signExtend 16) (readReg sr s) s) := rfl

/-- The pointer of LDI and STI is what the memory unit reads at the PC-relative address (R65). -/
theorem readsWord_pcIndirect (offset : BitVec 9) (s : State) :
    ReadsWord (s.pc + offset.signExtend 16) (pcIndirect offset s).1 s (pcIndirect offset s).2 :=
  readsWord_memRead _ s

/-! ### The statements -/

/-- Settles O24: the read at the PC-relative address, then the write of DR in the state it left. -/
theorem loadResult : Obligations.LoadResult := fun dr offset s =>
  ⟨_, _, _, exec_ld dr offset s, readsWord_memRead _ s, definesReg_defineReg dr _ _⟩

/-- Settles O25: the pointer read, the data read in the state it left, then the write of DR. -/
theorem loadIndirectResult : Obligations.LoadIndirectResult := fun dr offset s =>
  ⟨_, _, _, _, _, exec_ldi dr offset s, readsWord_pcIndirect offset s, readsWord_memRead _ _,
    definesReg_defineReg dr _ _⟩

/-- Settles O26: the read at base plus offset, then the write of DR in the state it left. -/
theorem loadBaseResult : Obligations.LoadBaseResult := fun dr base offset s =>
  ⟨_, _, _, exec_ldr dr base offset s, readsWord_memRead _ s, definesReg_defineReg dr _ _⟩

/-- Settles O27: DR is defined with the address in the state before, which no read has changed. -/
theorem loadAddressResult : Obligations.LoadAddressResult := fun dr offset s =>
  ⟨_, exec_lea dr offset s, definesReg_defineReg dr _ s⟩

/-- Settles O28: one store of SR at the PC-relative address. -/
theorem storeResult : Obligations.StoreResult := fun sr offset s =>
  ⟨_, exec_st sr offset s, storesWord_memWrite _ _ s⟩

/-- Settles O29: the pointer read, then one store of SR in the state it left. -/
theorem storeIndirectResult : Obligations.StoreIndirectResult := fun sr offset s =>
  ⟨_, _, _, exec_sti sr offset s, readsWord_pcIndirect offset s, storesWord_memWrite _ _ _⟩

/-- Settles O30: one store of SR at base plus offset. -/
theorem storeBaseResult : Obligations.StoreBaseResult := fun sr base offset s =>
  ⟨_, exec_str sr base offset s, storesWord_memWrite _ _ s⟩

end Sys2Proof.Machine
end

section
/-! PROOF. TRAP without strings: the registers it leaves, GETC and IN with a character pending, OUT, HALT, the
codes with no service, and the end of the hold (R73, R75, R76, R78, R80 to R82, R88, R106). -/

namespace Sys2Proof.Machine

/-! ### Registers -/

/-- A service that keeps what trap entry left of the registers and of `cond` leaves R7 alone changed. -/
theorem trapRegs_of_keeps_enterTrap {s t : State} (hx : t.x = (enterTrap s).x) (hpc : t.pc = s.pc)
    (hcond : t.cond = s.cond) : TrapRegs s t :=
  ⟨(readReg_congr hx .r7).trans (readReg_enterTrap_r7 s),
    fun r h7 => (readReg_congr hx r).trans (readReg_enterTrap_ne h7 s), hpc, hcond⟩

/-- Settles O43: a completed service keeps what trap entry left of R1 to R7, and a held one puts `pc` back. -/
theorem everyTrapSavesReturnAddress : Obligations.EveryTrapSavesReturnAddress := by
  intro vect s t h
  change execTrapWith Config.params vect s = .next t at h
  rcases execTrapWith_cases Config.params vect s with ⟨u, hdone, hu⟩ | ⟨hv, hread, hu⟩ | ⟨-, hu⟩
  · obtain rfl : u = t := Host.Outcome.next.inj (hu.symm.trans h)
    obtain ⟨hregs, hpc, -⟩ := runService_frame hdone
    exact .inl ⟨(hregs .r7 (by decide)).trans (readReg_enterTrap_r7 s), hpc,
      fun r h0 h7 => (hregs r h0).trans (readReg_enterTrap_ne h7 s)⟩
  · obtain rfl : holdStep s = t := Host.Outcome.next.inj (hu.symm.trans h)
    exact .inr ⟨hv, (consoleRead_none hread).1, rfl⟩
  · exact absurd (hu.symm.trans h) nofun

/-! ### OUT, HALT and the codes with no service -/

theorem exec_out (s : State) :
    exec (.trap 0x21#8) s = .next (consoleWrite (lowByte (readReg .r0 s)) (enterTrap s)) := rfl

theorem exec_halt (s : State) :
    exec (.trap 0x25#8) s =
      .next (stopRunning (consoleWriteAll Config.params.haltNotice (enterTrap s))) := rfl

/-- Settles O36: the one write of OUT appends the low byte of R0. -/
theorem outWritesLowByte : Obligations.OutWritesLowByte := by
  refine fun s => ⟨_, exec_out s, trapRegs_of_keeps_enterTrap rfl rfl rfl, rfl, rfl, ?_⟩
  rw [consoleWrite_console, lowByte_eq_setWidth, enterTrap_console]

/-- Settles O41: HALT appends the notice and clears `running`. -/
theorem haltStopsTheCore : Obligations.HaltStopsTheCore := fun s =>
  ⟨_, exec_halt s, trapRegs_of_keeps_enterTrap rfl rfl rfl, rfl, rfl, rfl, rfl⟩

theorem serviceOf_eq_none {vect : BitVec 8} (h : vect.toNat < 0x20 ∨ 0x25 < vect.toNat) :
    serviceOf vect = none := by
  have hne : ∀ k : BitVec 8, 0x20 ≤ k.toNat → k.toNat ≤ 0x25 → vect ≠ k := by
    rintro k hlo hhi rfl
    omega
  simp [serviceOf, hne]

/-- Settles O42: with no service, trap entry is all of the step. -/
theorem unknownTrapWritesOnlyR7 : Obligations.UnknownTrapWritesOnlyR7 := by
  intro vect s h
  have hexec : exec (.trap vect) s = .next (enterTrap s) := by
    refine execTrapWith_of_done ?_
    rw [serviceOf_eq_none h]
    rfl
  exact ⟨_, hexec, trapRegs_of_keeps_enterTrap rfl rfl rfl, rfl, rfl, rfl⟩

/-! ### GETC and IN with a character pending -/

/-- A zero-extended character is never negative. -/
theorem signFlag_setWidth_char (c : Byte) :
    signFlag (c.setWidth 16) = if c = 0x00#8 then .z else .p := by
  have hzero : c.setWidth 16 = 0x0000#16 ↔ c = 0x00#8 := by bv_omega
  have hbit : (c.setWidth 16).getLsbD 15 = false := by simp
  simp only [← flagOf_eq_signFlag, flagOf, hzero, hbit, Bool.false_eq_true, if_false]

theorem lowByte_zextChar (c : Byte) : lowByte (zextChar c) = c := by
  rw [lowByte_eq_setWidth, zextChar, BitVec.setWidth_setWidth_of_le c (by decide), BitVec.setWidth_eq]

/-- Settles O33: the read takes the character, and R0 is defined with it. -/
theorem getcReadsCharacter : Obligations.GetcReadsCharacter := by
  intro s c rest hi
  have hread := consoleRead_cons Config.params.eofPolicy (s := enterTrap s) hi
  obtain ⟨h0, h7, hother, hcond⟩ := defineReg_r0_after_enterTrap (zextChar c) (s := s)
    (u := { enterTrap s with console := { s.console with input := rest } }) rfl
  exact ⟨_, execTrapWith_getc_of_read hread, h0, h7, hother,
    hcond.trans (signFlag_setWidth_char c), rfl, rfl, rfl, rfl⟩

/-- Settles O34: the read takes the character, the prompt and the echo are written, and R0 is defined. -/
theorem inPromptsEchoesAndStores : Obligations.InPromptsEchoesAndStores := by
  intro s c rest hi
  have hread := consoleRead_cons Config.params.eofPolicy (s := enterTrap s) hi
  obtain ⟨h0, h7, hother, hcond⟩ := defineReg_r0_after_enterTrap (zextChar c) (s := s)
    (u := consoleWrite (lowByte (zextChar c)) (consoleWriteAll Config.params.inPrompt
      { enterTrap s with console := { s.console with input := rest } })) rfl
  refine ⟨_, execTrapWith_in_of_read hread, h0, h7, hother,
    hcond.trans (signFlag_setWidth_char c), rfl, rfl, rfl, rfl, rfl, ?_⟩
  rw [lowByte_zextChar]
  rfl

/-- What GETC and IN have in common with a character pending: it goes to R0 and the step completes. -/
theorem exec_getc_or_in_of_cons {vect : BitVec 8} (hv : vect = 0x20#8 ∨ vect = 0x23#8) {s : State} {c : Byte}
    {rest : List Byte} (hi : s.console.input = c :: rest) :
    ∃ t, exec (.trap vect) s = .next t ∧ readReg .r0 t = c.setWidth 16 ∧ readReg .r7 t = s.pc ∧
      t.pc = s.pc ∧ t.console.input = rest := by
  rcases hv with rfl | rfl
  · obtain ⟨t, hexec, h0, h7, -, -, hpc, -, -, hconsole⟩ := getcReadsCharacter s c rest hi
    exact ⟨t, hexec, h0, h7, hpc, by rw [hconsole]⟩
  · obtain ⟨t, hexec, h0, h7, -, -, hpc, -, -, -, hinput, -⟩ := inPromptsEchoesAndStores s c rest hi
    exact ⟨t, hexec, h0, h7, hpc, hinput⟩

/-- A core that fetches GETC or IN with a character pending completes the step. -/
theorem step_getc_or_in_of_cons {s : State} {c : Byte} {rest : List Byte} (hrun : s.running = true)
    (hpc : s.pc ≠ 0xFE00#16)
    (hword : decode (storeAt s.pc s) = .trap 0x20#8 ∨ decode (storeAt s.pc s) = .trap 0x23#8)
    (hi : s.console.input = c :: rest) :
    ∃ t, step s = .next t ∧ readReg .r0 t = c.setWidth 16 ∧ readReg .r7 t = s.pc + 1#16 ∧
      t.pc = s.pc + 1#16 ∧ t.console.input = rest := by
  rw [step_of_pc_ne hrun hpc]
  rcases hword with h | h <;> rw [h]
  · exact exec_getc_or_in_of_cons (s := { s with pc := s.pc + 1#16 }) (.inl rfl) hi
  · exact exec_getc_or_in_of_cons (s := { s with pc := s.pc + 1#16 }) (.inr rfl) hi

/-- Settles O46: the typed character is the only one pending when the waiting GETC or IN is fetched again. -/
theorem characterLiftsTheHold : Obligations.CharacterLiftsTheHold := by
  rintro s c ⟨hrun, hpc, hword, hinput, hopen⟩
  have htyped : systemStep (.typed c) s =
      some { s with console := { s.console with input := [c] } } := by
    simp [systemStep, typeChar, hopen, hinput]
  obtain ⟨t, hstep, h⟩ := step_getc_or_in_of_cons
    (s := { s with console := { s.console with input := [c] } }) hrun hpc hword rfl
  exact ⟨_, t, htyped, by simp only [systemStep, hstep], h⟩

end Sys2Proof.Machine
end

section
/-! PROOF. PUTS and PUTSP (R77, R79): the bound on the reads of their loop is exact (log entry 9), so a string
that ends within any number of reads is what the TRAP writes; with quiet reads the loop changes only the output,
with polling reads it follows `ReadsString`, through 0xFE00 too (R32). -/

namespace Sys2Proof.Machine

/-! ### The bound on string reads -/

/-- More reads than an ended loop needed change nothing. -/
theorem emitString_mono {chars : Word → List Byte} {poll : Bool} {m n : Nat} {a : Word} {s t : State}
    (hmn : m ≤ n) (h : emitString chars poll m a s = some t) : emitString chars poll n a s = some t := by
  induction m generalizing n a s with
  | zero => cases h
  | succ m ih =>
    obtain ⟨k, rfl⟩ : ∃ k, n = k + 1 := ⟨n - 1, by omega⟩
    by_cases h0 : (readString poll a s).1 = 0x0000#16
    · rw [emitString_of_zero _ h0] at h ⊢
      exact h
    · rw [emitString_of_ne _ h0] at h ⊢
      exact ih (by omega) h

/-- The state an ended loop leaves does not depend on how many reads were allowed. -/
theorem emitString_unique {chars : Word → List Byte} {poll : Bool} {m n : Nat} {a : Word} {s t u : State}
    (ht : emitString chars poll m a s = some t) (hu : emitString chars poll n a s = some u) : t = u :=
  Option.some.inj ((emitString_mono (le_max_left m n) ht).symm.trans (emitString_mono (le_max_right m n) hu))

/-- Direct reads change no word, so the zero word they end at was there from the start. -/
theorem exists_zero_word_of_emitString {chars : Word → List Byte} {n : Nat} {a : Word} {s t : State}
    (h : emitString chars false n a s = some t) : ∃ b, storeAt b s = 0x0000#16 := by
  induction n generalizing a s with
  | zero => cases h
  | succ n ih =>
    by_cases h0 : (readString false a s).1 = 0x0000#16
    · rw [readString_direct] at h0
      exact ⟨a, h0⟩
    · rw [emitString_of_ne _ h0, readString_direct] at h
      exact (ih h).imp fun b => (storeAt_congr (consoleWriteAll_store _ _) b).symm.trans

/-- Going up by the distance from `a` to `b` leads from `a` to `b`, wrapping. -/
theorem add_ofNat_distance (a b : Word) : a + BitVec.ofNat 16 (b - a).toNat = b := by
  rw [BitVec.ofNat_toNat, BitVec.setWidth_eq, BitVec.add_comm, BitVec.sub_add_cancel]

/-- A loop that ends at all ends within the bound: with direct reads within one round, with polling reads
always. -/
theorem emitString_ends_within_stringFuel {chars : Word → List Byte} {poll : Bool} {n : Nat} {a : Word}
    {s t : State} (h : emitString chars poll n a s = some t) :
    ∃ u, emitString chars poll (stringFuel s) a s = some u := by
  have hround : ∀ b : Word, s.console.input.length * 65536 + (b - a).toNat < stringFuel s := by
    intro b
    have hlt := (b - a).isLt
    unfold stringFuel
    omega
  cases poll with
  | true => exact emitString_polled_ends chars (hround kbsr)
  | false =>
    obtain ⟨b, hb⟩ := exists_zero_word_of_emitString h
    rw [← add_ofNat_distance a b] at hb
    exact emitString_direct_ends chars (lt_of_le_of_lt (Nat.le_add_left _ _) (hround b)) hb

/-- Settles O44: the loop ends within the bound, and where it ends does not depend on the bound. -/
theorem stringBoundIsExact : Obligations.StringBoundIsExact := by
  intro chars poll n a s t h
  obtain ⟨u, hu⟩ := emitString_ends_within_stringFuel h
  rw [emitString_unique h hu, hu]

/-! ### The two string services -/

/-- The code is that of PUTS or PUTSP, and `chars` are the characters that service writes for a word. -/
def StringTrap (vect : BitVec 8) (chars : Word → List Byte) : Prop :=
  (vect = 0x22#8 ∧ chars = putsChars) ∨ (vect = 0x24#8 ∧ chars = putspChars)

theorem StringTrap.puts : StringTrap 0x22#8 putsChars := .inl ⟨rfl, rfl⟩

theorem StringTrap.putsp : StringTrap 0x24#8 putspChars := .inr ⟨rfl, rfl⟩

theorem StringTrap.runService_eq {vect : BitVec 8} {chars : Word → List Byte} (hv : StringTrap vect chars)
    (p : Config.Params) (s : State) : runService p (serviceOf vect) s = serviceString chars p s := by
  rcases hv with ⟨rfl, rfl⟩ | ⟨rfl, rfl⟩ <;> rfl

/-- A string loop that ends within any number of reads is the TRAP's, and it changes no register but R7. -/
theorem StringTrap.execTrapWith_of_emitString {vect : BitVec 8} {chars : Word → List Byte}
    (hv : StringTrap vect chars) {p : Config.Params} {n : Nat} {s t : State}
    (h : emitString chars p.trapReadsPoll n (readReg .r0 s) (enterTrap s) = some t) :
    execTrapWith p vect s = .next t ∧ TrapRegs s t ∧ t.running = s.running := by
  obtain ⟨hx, hpc, hcond, hrun, -⟩ := emitString_frame h
  refine ⟨execTrapWith_of_done ?_, trapRegs_of_keeps_enterTrap hx hpc hcond, hrun⟩
  rw [hv.runService_eq, serviceString, readReg_enterTrap_ne (by decide), stringBoundIsExact _ _ _ _ _ _ h]

theorem flatMap_putsChars (ws : List Word) : ws.flatMap putsChars = ws.map fun w => w.setWidth 8 := by
  induction ws with
  | nil => rfl
  | cons w ws ih =>
    rw [List.flatMap_cons, ih, putsChars, lowByte_eq_setWidth]
    rfl

theorem lowByte_eq_ofNat_mod (w : Word) : lowByte w = BitVec.ofNat 8 (w.toNat % 256) := by
  simp [lowByte_eq_setWidth, BitVec.toNat_eq]

theorem highByte_eq_ofNat_div (w : Word) : highByte w = BitVec.ofNat 8 (w.toNat / 256) := by
  simp [highByte, BitVec.toNat_eq, Nat.shiftRight_eq_div_pow]

theorem highByte_eq_zero_iff (w : Word) : highByte w = 0x00#8 ↔ w.toNat < 256 := by
  rw [highByte_eq_ofNat_div]
  bv_omega

theorem flatMap_putspChars (ws : List Word) : ws.flatMap putspChars = packedChars ws := by
  induction ws with
  | nil => rfl
  | cons w ws ih =>
    rw [List.flatMap_cons, ih, packedChars, putspChars]
    congr 1
    by_cases h : w.toNat < 256
    · rw [if_neg (not_not.mpr ((highByte_eq_zero_iff w).mpr h)), if_pos h, lowByte_eq_ofNat_mod,
        Nat.mod_eq_of_lt h]
    · rw [if_pos (mt (highByte_eq_zero_iff w).mp h), if_neg h, lowByte_eq_ofNat_mod, highByte_eq_ofNat_div]

/-! ### Strings in memory -/

theorem add_ofNat_succ (a : Word) (n : Nat) : a + BitVec.ofNat 16 (n + 1) = a + 1#16 + BitVec.ofNat 16 n := by
  rw [Nat.add_comm, BitVec.ofNat_add, BitVec.add_assoc]

theorem stringAt_nil (s : State) (a : Word) : stringAt s a [] = true ↔ storeAt a s = 0x0000#16 := by
  simp [stringAt, wordsAt]

theorem wordsAt_cons (s : State) (a w : Word) (ws : List Word) :
    wordsAt s a (w :: ws) = true ↔ storeAt a s = w ∧ w ≠ 0x0000#16 ∧ wordsAt s (a + 1#16) ws = true := by
  simp [wordsAt, and_assoc]

theorem stringAt_cons (s : State) (a w : Word) (ws : List Word) :
    stringAt s a (w :: ws) = true ↔ storeAt a s = w ∧ w ≠ 0x0000#16 ∧ stringAt s (a + 1#16) ws = true := by
  rw [stringAt, stringAt, Bool.and_eq_true, Bool.and_eq_true, wordsAt_cons, and_assoc, and_assoc,
    List.length_cons, add_ofNat_succ a ws.length]

theorem wordsAt_congr {s t : State} (h : t.store = s.store) (a : Word) (ws : List Word) :
    wordsAt t a ws = wordsAt s a ws := by
  induction ws generalizing a with
  | nil => rfl
  | cons w ws ih => simp only [wordsAt, ih, storeAt_congr h]

/-- Whether a string stands at an address depends on the storage alone. -/
theorem stringAt_congr {s t : State} (h : t.store = s.store) (a : Word) (ws : List Word) :
    stringAt t a ws = stringAt s a ws := by
  simp only [stringAt, wordsAt_congr h, storeAt_congr h]

theorem avoidsKbsr_succ (a : Word) (n : Nat) :
    avoidsKbsr a (n + 1) = true ↔ a ≠ 0xFE00#16 ∧ avoidsKbsr (a + 1#16) n = true := by
  simp [avoidsKbsr]

theorem ne_of_avoidsKbsr {a : Word} {n : Nat} (h : avoidsKbsr a n = true) : a ≠ 0xFE00#16 := by
  cases n with
  | zero => simpa [avoidsKbsr] using h
  | succ n => exact ((avoidsKbsr_succ a n).mp h).1

/-! ### Quiet reads: direct, or away from KBSR -/

/-- A read that is direct, or away from KBSR, answers the stored word and changes nothing. -/
theorem readString_quiet {poll : Bool} {a : Word} (h : poll = true → a ≠ 0xFE00#16) (s : State) :
    readString poll a s = (storeAt a s, s) := by
  cases poll with
  | false => exact readString_direct a s
  | true => rw [readString_polled, memRead_of_ne (h rfl)]

theorem consoleWriteAll_consoleWriteAll (cs ds : List Byte) (s : State) :
    consoleWriteAll ds (consoleWriteAll cs s) = consoleWriteAll (cs ++ ds) s := by
  simp [consoleWriteAll]

/-- With quiet reads the loop writes the characters of the string and does nothing else. -/
theorem emitString_of_stringAt (chars : Word → List Byte) {poll : Bool} {ws : List Word} {a : Word}
    {s : State} (hs : stringAt s a ws = true) (hquiet : poll = true → avoidsKbsr a ws.length = true) :
    emitString chars poll (ws.length + 1) a s = some (consoleWriteAll (ws.flatMap chars) s) := by
  have hread : readString poll a s = (storeAt a s, s) :=
    readString_quiet (fun hp => ne_of_avoidsKbsr (hquiet hp)) s
  induction ws generalizing a s with
  | nil =>
    rw [stringAt_nil] at hs
    rw [emitString_of_zero _ (by rw [hread, hs]), hread]
    simp [consoleWriteAll]
  | cons w ws ih =>
    obtain ⟨rfl, hne, hrest⟩ := (stringAt_cons _ _ _ _).mp hs
    have hquiet' : poll = true → avoidsKbsr (a + 1#16) ws.length = true := fun hp =>
      ((avoidsKbsr_succ _ _).mp (hquiet hp)).2
    rw [List.length_cons, emitString_of_ne _ (by rwa [hread]), hread,
      ih (by rwa [stringAt_congr (consoleWriteAll_store _ _)]) hquiet'
        (readString_quiet (fun hp => ne_of_avoidsKbsr (hquiet' hp)) _),
      consoleWriteAll_consoleWriteAll, List.flatMap_cons]

/-- A string TRAP with quiet reads writes the characters of the string and R7, and changes nothing else. -/
theorem StringTrap.execTrapWith_of_stringAt {vect : BitVec 8} {chars : Word → List Byte}
    (hv : StringTrap vect chars) {p : Config.Params} {s : State} {ws : List Word}
    (hs : stringAt s (readReg .r0 s) ws = true)
    (hquiet : p.trapReadsPoll = true → avoidsKbsr (readReg .r0 s) ws.length = true) :
    ∃ t, execTrapWith p vect s = .next t ∧ TrapRegs s t ∧ t.running = s.running ∧ t.store = s.store ∧
      t.console = { s.console with output := s.console.output ++ ws.flatMap chars } := by
  rw [← stringAt_congr (enterTrap_store s)] at hs
  obtain ⟨hexec, hregs, hrun⟩ := hv.execTrapWith_of_emitString (emitString_of_stringAt chars hs hquiet)
  exact ⟨_, hexec, hregs, hrun, consoleWriteAll_store _ _, consoleWriteAll_console _ _⟩

/-- Settles O37: away from KBSR the reads are quiet, and PUTS writes the low byte of each word. -/
theorem putsWritesString : Obligations.PutsWritesString := by
  intro s ws hs havoid
  rw [← flatMap_putsChars]
  exact StringTrap.puts.execTrapWith_of_stringAt hs fun _ => havoid

/-- Settles O38: away from KBSR the reads are quiet, and PUTSP writes the packed characters. -/
theorem putspWritesPackedString : Obligations.PutspWritesPackedString := by
  intro s ws hs havoid
  rw [← flatMap_putspChars]
  exact StringTrap.putsp.execTrapWith_of_stringAt hs fun _ => havoid

/-- Settles O39: direct reads are quiet at every address. -/
theorem directStringReadsDoNotPoll : Obligations.DirectStringReadsDoNotPoll := by
  intro p s ws hp hs
  have hquiet : p.trapReadsPoll = true → avoidsKbsr (readReg .r0 s) ws.length = true := fun h =>
    absurd (hp.symm.trans h) nofun
  rw [← flatMap_putsChars, ← flatMap_putspChars]
  exact ⟨StringTrap.puts.execTrapWith_of_stringAt hs hquiet,
    StringTrap.putsp.execTrapWith_of_stringAt hs hquiet⟩

/-! ### Polling reads -/

/-- The two states look the same to the memory unit: the same words, the same pending characters, the input ended
in both or in neither. Their output, and how their storages list the words, may differ. -/
def ReadsAlike (s t : State) : Prop :=
  (∀ b, storeAt b t = storeAt b s) ∧ t.console.input = s.console.input ∧
    t.console.closed = s.console.closed

theorem ReadsAlike.enterTrap (s : State) : ReadsAlike s (enterTrap s) := ⟨fun _ => rfl, rfl, rfl⟩

theorem ReadsAlike.consoleWriteAll {s t : State} (h : ReadsAlike s t) (cs : List Byte) :
    ReadsAlike s (consoleWriteAll cs t) := h

theorem ReadsWord.closed_eq {a v : Word} {s t : State} (h : ReadsWord a v s t) :
    t.console.closed = s.console.closed := by
  obtain ⟨-, -, -, -, hclosed, -⟩ := h
  exact hclosed

/-- Away from KBSR a read is of the stored word and changes nothing. -/
theorem ReadsWord.of_ne {a v : Word} {s t : State} (h : ReadsWord a v s t) (ha : a ≠ 0xFE00#16) :
    v = storeAt a s ∧ t.store = s.store ∧ t.console.input = s.console.input := by
  obtain ⟨-, -, -, -, -, -, h⟩ := h
  rwa [if_neg ha] at h

/-- A poll with nothing pending reads 0x0000 and leaves it in KBSR. -/
theorem ReadsWord.kbsr_of_nil {v : Word} {s t : State} (h : ReadsWord 0xFE00#16 v s t)
    (hi : s.console.input = []) :
    v = 0x0000#16 ∧ storeAt 0xFE00#16 t = 0x0000#16 ∧ t.console.input = [] ∧
      ∀ b, b ≠ 0xFE00#16 → storeAt b t = storeAt b s := by
  obtain ⟨-, -, -, -, -, -, h⟩ := h
  rw [if_pos rfl, hi] at h
  obtain ⟨hv, hk, h⟩ := h
  exact ⟨hv.trans hk, hk, h⟩

/-- A poll with a character pending reads 0x8000 and takes the character into KBDR. -/
theorem ReadsWord.kbsr_of_cons {v : Word} {s t : State} {c : Byte} {rest : List Byte}
    (h : ReadsWord 0xFE00#16 v s t) (hi : s.console.input = c :: rest) :
    v = 0x8000#16 ∧ storeAt 0xFE00#16 t = 0x8000#16 ∧ storeAt 0xFE02#16 t = c.setWidth 16 ∧
      t.console.input = rest ∧ ∀ b, b ≠ 0xFE00#16 → b ≠ 0xFE02#16 → storeAt b t = storeAt b s := by
  obtain ⟨-, -, -, -, -, -, h⟩ := h
  rw [if_pos rfl, hi] at h
  obtain ⟨hv, hk, h⟩ := h
  exact ⟨hv.trans hk, hk, h⟩

/-- What a read answers and leaves is settled by what the memory unit can see. -/
theorem ReadsWord.congr {a v w : Word} {s s' t t' : State} (h : ReadsWord a v s t) (h' : ReadsWord a w s' t')
    (hs : ReadsAlike s s') : w = v ∧ ReadsAlike t t' := by
  obtain ⟨hwords, hinput, hclosed⟩ := hs
  have hclosed' : t'.console.closed = t.console.closed := by rw [h'.closed_eq, hclosed, h.closed_eq]
  by_cases ha : a = 0xFE00#16
  · subst ha
    cases hi : s.console.input with
    | nil =>
      obtain ⟨hv, hk, hin, hother⟩ := h.kbsr_of_nil hi
      obtain ⟨hw, hk', hin', hother'⟩ := h'.kbsr_of_nil (hinput.trans hi)
      refine ⟨by rw [hw, hv], fun b => ?_, by rw [hin', hin], hclosed'⟩
      by_cases hb : b = 0xFE00#16
      · rw [hb, hk', hk]
      · rw [hother' b hb, hwords, hother b hb]
    | cons c rest =>
      obtain ⟨hv, hk, hd, hin, hother⟩ := h.kbsr_of_cons hi
      obtain ⟨hw, hk', hd', hin', hother'⟩ := h'.kbsr_of_cons (hinput.trans hi)
      refine ⟨by rw [hw, hv], fun b => ?_, by rw [hin', hin], hclosed'⟩
      by_cases hb : b = 0xFE00#16
      · rw [hb, hk', hk]
      · by_cases hb' : b = 0xFE02#16
        · rw [hb', hd', hd]
        · rw [hother' b hb hb', hwords, hother b hb hb']
  · obtain ⟨hv, hstore, hin⟩ := h.of_ne ha
    obtain ⟨hw, hstore', hin'⟩ := h'.of_ne ha
    exact ⟨by rw [hw, hwords, hv], fun b => by rw [storeAt_congr hstore', hwords, storeAt_congr hstore],
      by rw [hin', hinput, hin], hclosed'⟩

/-- A polling read from a state that looks the same. -/
theorem ReadsWord.readString_alike {a v : Word} {s s' t : State} (h : ReadsWord a v s t)
    (hs : ReadsAlike s s') :
    (readString true a s').1 = v ∧ ReadsAlike t (readString true a s').2 := by
  rw [readString_polled]
  exact h.congr (readsWord_memRead a s') hs

/-- The polling loop follows every chain of reads `ReadsString` allows, and writes the characters of its words. -/
theorem emitString_of_readsString (chars : Word → List Byte) {ws : List Word} {a : Word} {s s' u : State}
    (h : ReadsString a ws s u) (hs : ReadsAlike s s') :
    ∃ t, emitString chars true (ws.length + 1) a s' = some t ∧ ReadsAlike u t ∧
      t.console.output = s'.console.output ++ ws.flatMap chars := by
  obtain ⟨-, -, -, -, -, hout⟩ := readString_frame true a s'
  induction ws generalizing a s s' with
  | nil =>
    obtain ⟨hzero, halike⟩ := ReadsWord.readString_alike h hs
    exact ⟨_, emitString_of_zero _ hzero, halike, by rw [hout, List.flatMap_nil, List.append_nil]⟩
  | cons w ws ih =>
    obtain ⟨hne, v, hword, hrest⟩ := h
    obtain ⟨hw, halike⟩ := hword.readString_alike hs
    obtain ⟨-, -, -, -, -, hout'⟩ :=
      readString_frame true (a + 1#16) (consoleWriteAll (chars w) (readString true a s').2)
    obtain ⟨t, ht, hut, htout⟩ := ih hrest (halike.consoleWriteAll (chars w)) hout'
    refine ⟨t, ?_, hut, ?_⟩
    · rw [List.length_cons, emitString_of_ne _ (by rwa [hw]), hw, ht]
    · rw [htout, consoleWriteAll_console, hout, List.flatMap_cons, List.append_assoc]

/-- A string TRAP with polling reads does what any chain of reads that ends says. -/
theorem StringTrap.execTrapWith_of_readsString {vect : BitVec 8} {chars : Word → List Byte}
    (hv : StringTrap vect chars) {p : Config.Params} (hp : p.trapReadsPoll = true) {s u : State}
    {ws : List Word} (h : ReadsString (readReg .r0 s) ws s u) :
    ∃ t, execTrapWith p vect s = .next t ∧ TrapRegs s t ∧ t.running = s.running ∧
      (∀ b, storeAt b t = storeAt b u) ∧
      t.console = { u.console with output := s.console.output ++ ws.flatMap chars } := by
  obtain ⟨t, ht, ⟨hwords, hinput, hclosed⟩, hout⟩ := emitString_of_readsString chars h (.enterTrap s)
  rw [← hp] at ht
  obtain ⟨hexec, hregs, hrun⟩ := hv.execTrapWith_of_emitString ht
  exact ⟨t, hexec, hregs, hrun, hwords, by
    simp only [← hinput, ← hclosed, ← enterTrap_console s, ← hout]⟩

/-! ### Chains of reads through KBSR -/

/-- Away from KBSR the memory unit answers the stored word and changes nothing. -/
theorem readsWord_storeAt {a : Word} (h : a ≠ 0xFE00#16) (s : State) : ReadsWord a (storeAt a s) s s := by
  have hread := readsWord_memRead a s
  rwa [memRead_of_ne h] at hread

/-- A string away from KBSR is a chain of reads that changes nothing. -/
theorem readsString_of_stringAt {ws : List Word} {a : Word} {s : State} (hs : stringAt s a ws = true)
    (havoid : avoidsKbsr a ws.length = true) : ReadsString a ws s s := by
  have hread := readsWord_storeAt (ne_of_avoidsKbsr havoid) s
  induction ws generalizing a with
  | nil => rwa [(stringAt_nil s a).mp hs] at hread
  | cons w ws ih =>
    obtain ⟨rfl, hne, hrest⟩ := (stringAt_cons _ _ _ _).mp hs
    obtain ⟨-, havoid'⟩ := (avoidsKbsr_succ _ _).mp havoid
    exact ⟨hne, s, hread, ih hrest havoid' (readsWord_storeAt (ne_of_avoidsKbsr havoid') s)⟩

/-- Nonzero words up to KBSR are a chain of reads that changes nothing, in front of any chain from KBSR on. -/
theorem readsString_of_wordsAt_to_kbsr {ws after : List Word} {a : Word} {s u : State}
    (hs : wordsAt s a ws = true) (hend : a + BitVec.ofNat 16 ws.length = 0xFE00#16)
    (hlen : ws.length < 65536) (hafter : ReadsString 0xFE00#16 after s u) :
    ReadsString a (ws ++ after) s u := by
  induction ws generalizing a with
  | nil =>
    obtain rfl : a = 0xFE00#16 := by simpa using hend
    exact hafter
  | cons w ws ih =>
    obtain ⟨rfl, hne, hrest⟩ := (wordsAt_cons _ _ _ _).mp hs
    rw [List.length_cons] at hend hlen
    have ha : a ≠ 0xFE00#16 := by
      rintro rfl
      bv_omega
    rw [add_ofNat_succ a ws.length] at hend
    exact ⟨hne, s, readsWord_storeAt ha s, ih hrest hend (by omega)⟩

/-- The characters of the word a poll answers when it has taken a character. -/
theorem StringTrap.chars_ready {vect : BitVec 8} {chars : Word → List Byte} (hv : StringTrap vect chars) :
    chars 0x8000#16 = if vect = 0x22#8 then [0x00#8] else [0x00#8, 0x80#8] := by
  rcases hv with ⟨rfl, rfl⟩ | ⟨rfl, rfl⟩ <;> decide

/-- Settles O40: every clause is a chain of polling reads. The first ends at KBSR with 0x0000, the second goes on
from there with 0x8000. -/
theorem polledStringEndsAtKbsr : Obligations.PolledStringEndsAtKbsr := by
  intro p s vect chars hp hchars
  obtain ⟨cs, hv, rfl⟩ : ∃ cs, StringTrap vect cs ∧ chars = List.flatMap cs := by
    rcases hchars with ⟨rfl, rfl⟩ | ⟨rfl, rfl⟩
    · exact ⟨_, .puts, funext fun ws => (flatMap_putsChars ws).symm⟩
    · exact ⟨_, .putsp, funext fun ws => (flatMap_putspChars ws).symm⟩
  have hpoll := readsWord_memRead 0xFE00#16 s
  refine ⟨fun ws hws hend hlen => ⟨fun hi => ?_, fun c rest after hi hafter havoid => ?_⟩,
    fun ws u h => hv.execTrapWith_of_readsString hp h⟩
  · obtain ⟨hzero, hk, hin, hother⟩ := hpoll.kbsr_of_nil hi
    have hchain : ReadsString 0xFE00#16 [] s (memRead 0xFE00#16 s).2 := by rwa [hzero] at hpoll
    obtain ⟨t, hexec, hregs, hrun, hwords, hconsole⟩ := hv.execTrapWith_of_readsString hp
      (readsString_of_wordsAt_to_kbsr hws hend hlen hchain)
    refine ⟨t, hexec, hregs, hrun, (hwords _).trans hk, fun b hb => (hwords b).trans (hother b hb), ?_⟩
    simp only [hconsole, hin, hi, hpoll.closed_eq, List.append_nil]
  · obtain ⟨hready, hk, hd, hin, hother⟩ := hpoll.kbsr_of_cons hi
    have hchain : ReadsString 0xFE00#16 (0x8000#16 :: after) s (memRead 0xFE00#16 s).2 :=
      ⟨by decide, _, hready ▸ hpoll, readsString_of_stringAt hafter havoid⟩
    obtain ⟨t, hexec, hregs, hrun, hwords, hconsole⟩ := hv.execTrapWith_of_readsString hp
      (readsString_of_wordsAt_to_kbsr hws hend hlen hchain)
    refine ⟨t, hexec, hregs, hrun, (hwords _).trans hk, (hwords _).trans hd,
      fun b hs hd => (hwords b).trans (hother b hs hd), ?_⟩
    simp only [hconsole, hin, hpoll.closed_eq, List.flatMap_append, List.flatMap_cons, hv.chars_ready,
      List.append_assoc]

end Sys2Proof.Machine
end

section
/-! PROOF. The reserved opcodes (44_reserved.md): RTI and RES answer the state they are given, which is the state
after the fetch (R83, R84). -/

namespace Sys2Proof.Machine

/-- RTI pops nothing and checks no privilege (R83). -/
theorem exec_rti (s : State) : exec .rti s = .next s := rfl

/-- RES raises no illegal-opcode exception (R84). -/
theorem exec_res (s : State) : exec .res s = .next s := rfl

/-- Settles O32: each of the two opcodes answers the state the fetch left. -/
theorem reservedOpcodesDoNothing : Obligations.ReservedOpcodesDoNothing := fun s =>
  ⟨exec_rti s, exec_res s⟩

end Sys2Proof.Machine
end

section
/-! PROOF. A typed character is unseen until an instruction reads the input (R34, R39, R86, R87): away from 0xFE00
every operation of an instruction commutes with appending a character to the console's input. -/

namespace Sys2Proof.Machine

/-! ### The state with one more character pending -/

/-- The state an enabled `typeChar` answers. -/
def withTyped (c : Byte) (s : State) : State :=
  { s with console := { s.console with input := s.console.input ++ [c] } }

theorem typeChar_eq_some_iff {c : Byte} {s u : State} :
    typeChar c s = some u ↔ s.console.closed = false ∧ u = withTyped c s := by
  cases hc : s.console.closed <;> simp [typeChar, hc, withTyped, eq_comm]

/-! ### Loads and pointer reads away from KBSR -/

theorem exec_ld_of_ne (dr : Reg) {offset : BitVec 9} {s : State} (ha : pcRelative offset s ≠ kbsr) :
    exec (.ld dr offset) s = .next (defineReg dr (storeAt (pcRelative offset s) s) s) := by
  rw [exec_ld, ← sext, ← pcRelative, memRead_of_ne ha]

theorem exec_ldr_of_ne (dr : Reg) {base : Reg} {offset : BitVec 6} {s : State}
    (ha : baseOffset base offset s ≠ kbsr) :
    exec (.ldr dr base offset) s = .next (defineReg dr (storeAt (baseOffset base offset s) s) s) := by
  rw [exec_ldr, ← sext, ← baseOffset, memRead_of_ne ha]

theorem exec_ldi_of_ne (dr : Reg) {offset : BitVec 9} {s : State} (ha : pcRelative offset s ≠ kbsr)
    (hb : storeAt (pcRelative offset s) s ≠ kbsr) :
    exec (.ldi dr offset) s = .next (defineReg dr (storeAt (storeAt (pcRelative offset s) s) s) s) := by
  rw [exec_ldi, pcIndirect, memRead_of_ne ha, memRead_of_ne hb]

theorem exec_sti_of_ne (sr : Reg) {offset : BitVec 9} {s : State} (ha : pcRelative offset s ≠ kbsr) :
    exec (.sti sr offset) s = .next (memWrite (storeAt (pcRelative offset s) s) (readReg sr s) s) := by
  rw [exec_sti, pcIndirect, memRead_of_ne ha]

/-! ### Strings -/

/-- The loop of PUTS and PUTSP does not look at the input when its reads are direct, or poll and end before KBSR. -/
theorem emitString_withTyped (chars : Word → List Byte) {poll : Bool} (fuel : Nat) {a : Word} (c : Byte) {s : State}
    (hquiet : poll = true → meetsKbsr a s = false) :
    emitString chars poll fuel a (withTyped c s) = (emitString chars poll fuel a s).map (withTyped c) := by
  induction fuel generalizing a s with
  | zero => rfl
  | succ fuel ih =>
    have hread : ∀ u, readString poll a u = (storeAt a u, u) :=
      readString_quiet fun hp => ne_kbsr_of_meetsKbsr (hquiet hp)
    by_cases h0 : storeAt a s = 0x0000#16
    · rw [emitString_of_zero _ (by rwa [hread]), emitString_of_zero _ (by rwa [hread]), hread, hread]
      rfl
    · rw [emitString_of_ne _ (by rwa [hread]), emitString_of_ne _ (by rwa [hread]), hread, hread]
      exact ih (s := consoleWriteAll (chars (storeAt a s)) s) fun hp =>
        (meetsKbsr_congr (consoleWriteAll_store _ _) _).trans (meetsKbsr_next (hquiet hp) h0)

/-- Trap entry changes neither R0 nor a word, so the service's string is the one at R0 before it. -/
theorem StringTrap.emitString_of_execTrapWith {vect : BitVec 8} {chars : Word → List Byte}
    (hv : StringTrap vect chars) {p : Config.Params} {s t : State} (h : execTrapWith p vect s = .next t) :
    emitString chars p.trapReadsPoll (stringFuel s) (readReg .r0 s) (enterTrap s) = some t := by
  rcases execTrapWith_cases p vect s with ⟨u, hdone, hu⟩ | ⟨hvect, -⟩ | ⟨-, hu⟩
  · obtain rfl : u = t := Host.Outcome.next.inj (hu.symm.trans h)
    rw [hv.runService_eq] at hdone
    exact emitString_of_serviceString_done hdone
  · rcases hv with ⟨rfl, -⟩ | ⟨rfl, -⟩ <;> exact absurd hvect (by decide)
  · exact absurd (hu.symm.trans h) nofun

/-- The typed character raises the bound on the reads, and the loop ends where it did. -/
theorem StringTrap.execTrapWith_withTyped {vect : BitVec 8} {chars : Word → List Byte}
    (hv : StringTrap vect chars) {p : Config.Params} {s t : State} (c : Byte)
    (hquiet : p.trapReadsPoll = true → meetsKbsr (readReg .r0 s) s = false)
    (h : execTrapWith p vect s = .next t) : execTrapWith p vect (withTyped c s) = .next (withTyped c t) := by
  have hloop := emitString_withTyped chars (stringFuel s) c (s := enterTrap s) fun hp =>
    (meetsKbsr_congr (enterTrap_store s) _).trans (hquiet hp)
  rw [hv.emitString_of_execTrapWith h] at hloop
  obtain ⟨hexec, -⟩ := hv.execTrapWith_of_emitString (s := withTyped c s) hloop
  exact hexec

/-! ### The instructions -/

/-- A string TRAP that does not look at the input and polls has a string that ends before KBSR. -/
theorem StringTrap.meetsKbsr_of_readsInput {vect : BitVec 8} {chars : Word → List Byte} (hv : StringTrap vect chars)
    {s : State} (hunread : readsInput (.trap vect) s = false) (hp : Config.params.trapReadsPoll = true) :
    meetsKbsr (readReg .r0 s) s = false := by
  rcases hv with ⟨rfl, -⟩ | ⟨rfl, -⟩ <;> simpa [readsInput, hp] using hunread

/-- GETC and IN read the input; the other services do not, a string service while it does not poll KBSR. -/
theorem execTrap_withTyped {vect : BitVec 8} {s t : State} (c : Byte)
    (hunread : readsInput (.trap vect) s = false) (h : execTrap vect s = .next t) :
    execTrap vect (withTyped c s) = .next (withTyped c t) := by
  have hvect := serviceOf_cases vect
  rcases hsv : serviceOf vect with _ | ⟨⟨⟩⟩ <;> rw [hsv] at hvect
  case none =>
    have hentry : ∀ u, execTrap vect u = .next (enterTrap u) := fun u =>
      execTrapWith_of_done (by rw [hsv]; rfl)
    rw [hentry] at h ⊢
    cases h
    rfl
  all_goals obtain rfl := hvect
  case some.getc => exact absurd hunread (by simp [readsInput])
  case some.in => exact absurd hunread (by simp [readsInput])
  case some.puts =>
    exact StringTrap.puts.execTrapWith_withTyped c (StringTrap.puts.meetsKbsr_of_readsInput hunread) h
  case some.putsp =>
    exact StringTrap.putsp.execTrapWith_withTyped c (StringTrap.putsp.meetsKbsr_of_readsInput hunread) h
  case some.out =>
    cases h
    rfl
  case some.halt =>
    cases h
    rfl

/-- An instruction that does not look at the input commutes with typing a character. -/
theorem exec_withTyped {i : Instr} {s t : State} (c : Byte) (hunread : readsInput i s = false)
    (h : exec i s = .next t) : exec i (withTyped c s) = .next (withTyped c t) := by
  cases i with
  | br n z p offset =>
    by_cases htaken : branchTaken n z p s.cond = true
    · rw [exec_br_of_taken htaken] at h
      cases h
      exact exec_br_of_taken (s := withTyped c s) htaken offset
    · rw [exec_br_of_not_taken htaken] at h
      cases h
      exact exec_br_of_not_taken (s := withTyped c s) htaken offset
  | ld dr offset =>
    have ha : pcRelative offset s ≠ kbsr := beq_eq_false_iff_ne.mp hunread
    rw [exec_ld_of_ne dr ha] at h
    cases h
    exact exec_ld_of_ne (s := withTyped c s) dr ha
  | ldr dr base offset =>
    have ha : baseOffset base offset s ≠ kbsr := beq_eq_false_iff_ne.mp hunread
    rw [exec_ldr_of_ne dr ha] at h
    cases h
    exact exec_ldr_of_ne (s := withTyped c s) dr ha
  | ldi dr offset =>
    obtain ⟨hunread, hunread'⟩ := Bool.or_eq_false_iff.mp hunread
    have ha : pcRelative offset s ≠ kbsr := beq_eq_false_iff_ne.mp hunread
    have hb : storeAt (pcRelative offset s) s ≠ kbsr := beq_eq_false_iff_ne.mp hunread'
    rw [exec_ldi_of_ne dr ha hb] at h
    cases h
    exact exec_ldi_of_ne (s := withTyped c s) dr ha hb
  | sti sr offset =>
    have ha : pcRelative offset s ≠ kbsr := beq_eq_false_iff_ne.mp hunread
    rw [exec_sti_of_ne sr ha] at h
    cases h
    exact exec_sti_of_ne (s := withTyped c s) sr ha
  | trap vect => exact execTrap_withTyped c hunread h
  | _ =>
    cases h
    rfl

/-- Settles O60: the step commutes with typing, and leaves the input as open as it was. -/
theorem typingIsUnseenUntilRead : Obligations.TypingIsUnseenUntilRead := by
  intro i c s u t hunread htype h
  obtain ⟨hopen, rfl⟩ := typeChar_eq_some_iff.mp htype
  obtain ⟨-, -, hclosed⟩ := exec_consoleAdvances h
  exact ⟨withTyped c t, typeChar_eq_some_iff.mpr ⟨hclosed.trans hopen, rfl⟩, exec_withTyped c hunread h⟩

end Sys2Proof.Machine
end

section
/-! PROOF. A fetch from 0xFE00 (R32, R105): the poll leaves 0x8000 or 0x0000 there, and either word is a no-op. -/

namespace Sys2Proof.Machine

/-- A poll reads one of the two words that KBSR can then hold, and both are no-ops (R50). -/
theorem exec_memRead_kbsr (s t : State) : exec (decode (memRead kbsr s).1) t = .next t := by
  cases hi : s.console.input with
  | nil =>
    rw [memRead_kbsr_of_nil hi]
    exact noOpWordsChangeNothing _ t (.inr (.inr (by decide)))
  | cons c rest =>
    rw [memRead_kbsr_of_cons hi]
    exact noOpWordsChangeNothing _ t (.inl (by decide))

/-- A step at KBSR is the poll and the increment of `pc`. -/
theorem step_of_pc_kbsr {s : State} (hrun : s.running = true) (hpc : s.pc = kbsr) :
    step s = .next (setPc (kbsr + 1#16) (memRead kbsr s).2) := by
  rw [step_of_running hrun, fetch_eq, hpc, exec_memRead_kbsr]

/-- Settles O11: the next state is what the poll leaves, one word further, by whether a character is pending. -/
theorem fetchAtKbsrIsNoOp : Obligations.FetchAtKbsrIsNoOp := by
  intro s hrun hpc
  have hpoll : ReadsWord 0xFE00#16 _ s (memRead kbsr s).2 := readsWord_memRead kbsr s
  obtain ⟨hx, -, hcond, hrunning, -, hout⟩ := memRead_frame kbsr s
  refine ⟨_, step_of_pc_kbsr hrun hpc, rfl, hx, hcond, hrunning.trans hrun, ?_⟩
  cases hi : s.console.input with
  | nil =>
    obtain ⟨-, hk, hin, hother⟩ := hpoll.kbsr_of_nil hi
    exact ⟨hin, hout, hk, nofun, fun b hb _ => hother b hb⟩
  | cons c rest =>
    obtain ⟨-, hk, hd, hin, hother⟩ := hpoll.kbsr_of_cons hi
    refine ⟨hin, hout, hk, fun c' rest' hcons => ?_, hother⟩
    obtain ⟨rfl, -⟩ := List.cons.inj hcons
    exact hd

end Sys2Proof.Machine
end

section
/-! PROOF. Image files and start-up (R98 to R102): where the words of a file come to lie, when a file fails to load,
and what the start-up comes to. -/

namespace Sys2Proof.Machine

/-! ### The words of a file -/

/-- Two bytes are a word, the first one its high byte (R99). -/
theorem toNat_byte_append_byte (hi lo : Byte) : (hi ++ lo).toNat = hi.toNat * 256 + lo.toNat := by
  rw [BitVec.toNat_append, ← Nat.shiftLeft_add_eq_or_of_lt lo.isLt, Nat.shiftLeft_eq]

/-- Pairs of bytes are words, and an odd byte after them completes none (R99, R100). -/
theorem wordsOfBytes_pairs (pairs : List (Byte × Byte)) {odd : List Byte} (hodd : odd.length ≤ 1) :
    wordsOfBytes ((pairs.flatMap fun b => [b.1, b.2]) ++ odd) = pairs.map fun b => b.1 ++ b.2 := by
  induction pairs with
  | nil =>
    match odd, hodd with
    | [], _ => rfl
    | [_], _ => rfl
  | cons b rest ih => exact congrArg ((b.1 ++ b.2) :: ·) ih

theorem loadImage_cons_cons (o₁ o₂ : Byte) (file : List Byte) (m : Memory) :
    loadImage (o₁ :: o₂ :: file) m = some (loadWords (o₁ ++ o₂).toNat (wordsOfBytes file) m) := by
  rw [loadImage, if_pos (by simp [imageWellFormed]), wordsOfBytes]

/-! ### The words of a storage after loading -/

/-- Word `k` of a list lies at `a + k`, as far as the address space goes, and every other word is as before (R100). -/
theorem read_loadWords (a : Nat) (ws : List Word) (m : Memory) {b : Nat} (hb : b < 65536) :
    (loadWords a ws m).read b = if a ≤ b then ws[b - a]?.getD (m.read b) else m.read b := by
  induction ws generalizing a m with
  | nil => simp [loadWords]
  | cons w rest ih =>
    rcases Nat.lt_trichotomy b a with hlt | rfl | hgt
    · rw [if_neg (by omega), loadWords]
      split
      · rw [ih, if_neg (by omega), Memory.read_write_ne m (by omega)]
      · rfl
    · rw [if_pos le_rfl, loadWords, if_pos hb, ih, if_neg (by omega), Memory.read_write_same, Nat.sub_self]
      rfl
    · rw [if_pos hgt.le, loadWords, if_pos (hgt.trans hb), ih, if_pos (Nat.succ_le_of_lt hgt),
        Memory.read_write_ne m (by omega), show b - a = b - (a + 1) + 1 by omega, List.getElem?_cons_succ]

/-- Settles O48: the payload's bytes are its words, and each is stored at the next address. -/
theorem imageWordsLieInSequence : Obligations.ImageWordsLieInSequence := by
  intro o₁ o₂ payload odd m hm hodd
  have hload := loadImage_cons_cons o₁ o₂ ((payload.flatMap fun b => [b.1, b.2]) ++ odd) m
  refine ⟨_, hload, loadImage_wf hm hload, fun a ha => ?_⟩
  rw [read_loadWords _ _ m ha, wordsOfBytes_pairs payload hodd, List.getElem?_map, toNat_byte_append_byte]
  cases payload[a - (o₁.toNat * 256 + o₂.toNat)]? with
  | none => simp
  | some b => simp [← toNat_byte_append_byte]

/-! ### Which files load -/

/-- A file fails to load exactly when it holds no whole word, whatever the storage (R100). -/
theorem loadImage_eq_none_iff {file : List Byte} {m : Memory} : loadImage file m = none ↔ file.length < 2 := by
  match file with
  | [] => simp [loadImage, imageWellFormed]
  | [_] => simp [loadImage, imageWellFormed]
  | o₁ :: o₂ :: rest => simp [loadImage_cons_cons]

/-- The images are loaded one after another, and the first failure is the failure of all (R100, R101). -/
theorem loadImages_eq_foldlM (images : List (Option (List Byte))) (m : Memory) :
    loadImages images m = images.foldlM (fun m file => file.bind fun bytes => loadImage bytes m) m := by
  induction images generalizing m with
  | nil => rfl
  | cons image rest ih =>
    cases image with
    | none => rfl
    | some file =>
      rw [loadImages, List.foldlM_cons, Option.bind_some]
      cases loadImage file m with
      | none => rfl
      | some m' => exact ih m'

/-- A path fails to load when it cannot be read or its file holds no whole word (R100, R101). -/
theorem bind_loadImage_eq_none_iff {image : Option (List Byte)} {m : Memory} :
    (image.bind fun bytes => loadImage bytes m) = none ↔
      image = none ∨ ∃ b, image = some b ∧ b.length < 2 := by
  cases image with
  | none => simp
  | some file => simpa using loadImage_eq_none_iff (m := m)

/-- Loading fails exactly when one of the paths does, whatever was loaded before it. -/
theorem loadImages_eq_none_iff {images : List (Option (List Byte))} {m : Memory} :
    loadImages images m = none ↔ ∃ f ∈ images, f = none ∨ ∃ b, f = some b ∧ b.length < 2 := by
  rw [loadImages_eq_foldlM]
  induction images generalizing m with
  | nil => simp
  | cons image rest ih =>
    rw [List.foldlM_cons, List.exists_mem_cons_iff, ← bind_loadImage_eq_none_iff (m := m)]
    cases image.bind fun bytes => loadImage bytes m with
    | none => exact iff_of_true rfl (.inl rfl)
    | some m' => exact ih.trans (or_iff_right nofun).symm

/-! ### Start-up -/

/-- With a path given, start-up comes to what the loading of the images into zeroed memory comes to (R98, R101). -/
theorem boot_of_ne_nil {images : List (Option (List Byte))} (h : images ≠ []) :
    boot images =
      (loadImages images []).elim .loadFailure fun m => .started { State.reset with store := m } := by
  cases images with
  | nil => exact absurd rfl h
  | cons first rest =>
    rw [boot, show State.reset.store = [] from rfl]
    cases loadImages (first :: rest) [] <;> rfl

/-- Once a path is given, start-up and loading fail together (R101). -/
theorem boot_eq_loadFailure_iff {images : List (Option (List Byte))} (h : images ≠ []) :
    boot images = .loadFailure ↔ loadImages images [] = none := by
  rw [boot_of_ne_nil h]
  cases loadImages images [] <;> simp

/-- A machine that starts is the reset machine with every image loaded (R98). -/
theorem boot_started {images : List (Option (List Byte))} {s : State} (h : boot images = .started s) :
    ∃ m, loadImages images [] = some m ∧ s = { State.reset with store := m } := by
  have hpaths : images ≠ [] := by
    rintro rfl
    cases h
  rw [boot_of_ne_nil hpaths] at h
  cases hload : loadImages images [] with
  | none =>
    rw [hload] at h
    cases h
  | some m =>
    rw [hload] at h
    cases h
    exact ⟨m, rfl, rfl⟩

/-- With every path readable and every file of two bytes or more, the core starts (R98, R100). -/
theorem boot_starts {images : List (Option (List Byte))} (hpaths : images ≠ [])
    (h : ∀ f ∈ images, ∃ b, f = some b ∧ 2 ≤ b.length) : ∃ s, boot images = .started s := by
  rw [boot_of_ne_nil hpaths]
  cases hload : loadImages images [] with
  | some m => exact ⟨_, rfl⟩
  | none =>
    obtain ⟨f, hf, hbad⟩ := loadImages_eq_none_iff.mp hload
    obtain ⟨b, rfl, hlen⟩ := h f hf
    rcases hbad with hunread | ⟨b', hb', hshort⟩
    · cases hunread
    · cases hb'
      exact absurd hlen (Nat.not_le.mpr hshort)

/-- A start-up that fails has a nonzero exit code (R101). -/
theorem Boot.exitCode_ne_zero {b : Boot} {code : Nat} (h : b.exitCode = some code) : code ≠ 0 := by
  cases b with
  | started s => cases h
  | noPaths =>
    cases h
    exact Nat.succ_ne_zero _
  | loadFailure =>
    cases h
    unfold Config.loadFailureCode
    split <;> exact Nat.succ_ne_zero _

/-- The two exit codes of a failed start-up differ (log entry 18). -/
theorem noPathsCode_ne_loadFailureCode : Config.noPathsCode ≠ Config.loadFailureCode := by
  unfold Config.noPathsCode Config.loadFailureCode
  split <;> omega

/-- Settles O49: start-up fails exactly where loading does, and otherwise is reset with the loaded memory. -/
theorem bootStartsOrFails : Obligations.BootStartsOrFails := by
  refine ⟨rfl, fun images hpaths => (boot_eq_loadFailure_iff hpaths).trans loadImages_eq_none_iff,
    fun _ => boot_starts, fun images s h => ?_, fun _ _ => Boot.exitCode_ne_zero,
    fun h => noPathsCode_ne_loadFailureCode (Option.some.inj h)⟩
  have hinv : MachineInv s := boot_machineInv h
  obtain ⟨m, hload, rfl⟩ := boot_started h
  exact ⟨rfl, rfl, rfl, rfl, rfl, hinv, (loadImages_eq_foldlM images []).symm.trans hload⟩

end Sys2Proof.Machine
end
